-- ==== Sys2Proof/Word.lean ====
section
/-! DEFINITION. The word types of the engine (00_scope.md R14: every value is unsigned). -/
namespace Sys2Proof

/-- One byte of the buffer, or the byte operand `IMM8` (`u8`). -/
abbrev Byte := BitVec 8

/-- A register of the host window, a command word, a CRC state (`u32`). -/
abbrev Word := BitVec 32

/-- A register split into a `_LO` and a `_HI` half (`u64`, 20_memory.md R65). -/
abbrev Dword := BitVec 64

/-- `CUR` and `END`: `P_ADDR_W + 1` bits with `P_ADDR_W` at most 64 (10_state.md R30, R31). -/
abbrev Position := BitVec 65

end Sys2Proof
end

