-- ==== Sys2Proof/Config.lean ====
section
/-! DEFINITION. The implementation parameters (00_scope.md R5 to R9) and the free values
(93_implementation_defined.md U1, U3, U5). -/
namespace Sys2Proof.Config

/-- `P_ALIGN` (00_scope.md R8): whether the byte-wise alignment phase runs. -/
inductive Align where
  /-- `ALIGN4`: the ALIGN phase runs. -/
  | align4
  /-- `NONE`: the ALIGN phase is left out. -/
  | omitted
  deriving DecidableEq, Repr

/-- The places `base ≤ a < base + size` of the buffer address space. -/
structure Range where
  base : Nat
  size : Nat
  deriving DecidableEq, Repr

/-- The parameters of one engine instance and of the platform it stands on. They are no state
(10_state.md R42): `State` carries them unchanged, so that whatever is stated of every state holds for
every choice of them (92_eei_decisions.md, OPEN parameters). -/
structure Params where
  /-- `P_ADDR_W` (R5). -/
  addrW : Nat
  /-- `P_HW4` (R6). -/
  hw4 : Bool
  /-- `P_HW8` (R6). -/
  hw8 : Bool
  /-- `P_NEON` (R6). -/
  neon : Bool
  /-- `P_BATCH` (R6). -/
  batch : Bool
  /-- `P_BATCH_CHUNK` in bytes (R7). -/
  batchChunk : Nat
  /-- `P_BATCH_MIN` in bytes (R7). -/
  batchMin : Nat
  /-- `P_ALIGN` (R8). -/
  align : Align
  /-- `P_REG_BASE` (R9). -/
  regBase : Nat
  /-- The platform's places whose reads have side effects (20_memory.md R72,
  93_implementation_defined.md U4; log 4). -/
  sideEffects : List Range
  deriving DecidableEq, Repr

/-- The instance that `State.reset` takes. DESIGN CHOICE (log 2), unsafe: the spec fixes none of the
OPEN parameters; here every optional unit is present and `P_ADDR_W`, `P_ALIGN` have the spec's defaults.
No statement rests on these values. -/
def sample : Params where
  addrW := 64
  hw4 := true
  hw8 := true
  neon := true
  batch := true
  batchChunk := 16
  batchMin := 64
  align := .align4
  regBase := 0
  sideEffects := []

/-- The byte that a read of a buffer place returns when the place was written during the `EXTEND`
reading it (93_implementation_defined.md U3), by draw number and place. Free value (log 6). -/
opaque freeByte : Nat → Nat → Byte

/-- The value of a host read of `ACC_LO`, `CUR_LO` or `CUR_HI` while busy
(93_implementation_defined.md U1), by draw number. Free value (log 7). -/
opaque freeRead : Nat → Word

/-- The low half of `ACC` where the spec leaves it unspecified: after an abort (U5), and when a byte
already consumed is written during its `EXTEND` (U3), by draw number. Free value (log 6, log 10). -/
opaque freeAcc : Nat → Word

/-- `CUR` after an abort (93_implementation_defined.md U5), by draw number. Free value (log 10). -/
opaque freeCur : Nat → Position

end Sys2Proof.Config
end

