-- ==== Sys2Proof/Syntax.lean ====
section
/-! DEFINITION. The commands (30_encoding.md R93), one constructor per row of spec/opcode_table.json. -/
namespace Sys2Proof

/-- A command of the engine. The only operand in the word is `IMM8` of `STEP1` (30_encoding.md R92);
every other operand is a register. -/
inductive Instr where
  /-- `NOP`, OPC 0x00. -/
  | nop
  /-- `INIT`, OPC 0x01. -/
  | init
  /-- `FINAL`, OPC 0x02. -/
  | final
  /-- `STEP1 #imm8`, OPC 0x10. -/
  | step1 (imm8 : Byte)
  /-- `STEP4`, OPC 0x11. -/
  | step4
  /-- `SWSTEP`, OPC 0x12. -/
  | swstep
  /-- `CRC32C.W`, OPC 0x20. -/
  | crc32cW
  /-- `CRC32C.D`, OPC 0x21. -/
  | crc32cD
  /-- `NEON.D`, OPC 0x22. -/
  | neonD
  /-- `WSTEP`, OPC 0x30. -/
  | wstep
  /-- `EXTEND`, OPC 0x40. -/
  | extend
  deriving DecidableEq, Repr

end Sys2Proof
end

