-- ==== Sys2Proof/WellFormed.lean ====
section
/-! DEFINITION. What a well-formed command and well-formed parameters are. -/
namespace Sys2Proof

/-- A command as written in assembler (30_encoding.md R98): the mnemonic and, for `STEP1` only, the
number after `#`. -/
structure Source where
  mnemonic : String
  imm : Option Nat
  deriving DecidableEq, Repr

/-- The mnemonic of a command as spec/opcode_table.json spells it. -/
def Instr.mnemonic : Instr → String
  | .nop => "NOP"
  | .init => "INIT"
  | .final => "FINAL"
  | .step1 _ => "STEP1"
  | .step4 => "STEP4"
  | .swstep => "SWSTEP"
  | .crc32cW => "CRC32C.W"
  | .crc32cD => "CRC32C.D"
  | .neonD => "NEON.D"
  | .wstep => "WSTEP"
  | .extend => "EXTEND"

/-- The ten commands without an operand in the word (30_encoding.md R93). -/
def plainInstrs : List Instr :=
  [.nop, .init, .final, .step4, .swstep, .crc32cW, .crc32cD, .neonD, .wstep, .extend]

/-- The command a source line stands for (30_encoding.md R98): `imm` in 0..255 for `STEP1`, no operand
for the others; nothing otherwise. -/
def Source.instr? (l : Source) : Option Instr :=
  match l.imm with
  | some n => if l.mnemonic = "STEP1" ∧ n < 256 then some (.step1 (BitVec.ofNat 8 n)) else none
  | none => plainInstrs.find? (fun i => i.mnemonic == l.mnemonic)

/-- A source line is well formed when it stands for a command. -/
def Source.wf (l : Source) : Bool := l.instr?.isSome

/-- Every term of `Instr` is well formed: the type of `IMM8` already bounds the one operand. -/
def Instr.wf : Instr → Bool
  | .nop => true
  | .init => true
  | .final => true
  | .step1 imm8 => decide (imm8.toNat < 256)
  | .step4 => true
  | .swstep => true
  | .crc32cW => true
  | .crc32cD => true
  | .neonD => true
  | .wstep => true
  | .extend => true

/-- The ranges of the parameters (00_scope.md R5, R7): `P_ADDR_W` in 1..64, `P_BATCH_CHUNK` a positive
multiple of 16. -/
abbrev Config.Params.wf (p : Config.Params) : Prop :=
  1 ≤ p.addrW ∧ p.addrW ≤ 64 ∧ 0 < p.batchChunk ∧ p.batchChunk % 16 = 0

end Sys2Proof
end

