-- ==== Sys2Proof/Decode.lean ====
section
/-! DEFINITION. The command encoding (30_encoding.md R90 to R96): the decoder, total on every 32-bit word,
and the encoder. -/
namespace Sys2Proof

/-- Why a word is no command (30_encoding.md R94). Each is answered by error ILLEGAL. -/
inductive DecodeError where
  /-- `RSV` (bits 31:16) is not 0. -/
  | reservedBits
  /-- `OPC` (bits 7:0) is not in the opcode map. -/
  | unknownOpcode
  /-- `IMM8` (bits 15:8) is not 0 and `OPC` is not `STEP1`'s. -/
  | strayImmediate
  deriving DecidableEq, Repr

/-- `OPC`, bits 7:0 (30_encoding.md R91). -/
def opcField (w : Word) : Byte := w.extractLsb' 0 8

/-- `IMM8`, bits 15:8 (30_encoding.md R91). -/
def immField (w : Word) : Byte := w.extractLsb' 8 8

/-- `RSV`, bits 31:16 (30_encoding.md R91). -/
def rsvField (w : Word) : BitVec 16 := w.extractLsb' 16 16

/-- The `OPC` of `STEP1`, the one command that uses `IMM8`. -/
def step1Opcode : Byte := 0x10#8

/-- The opcode map without `STEP1` (30_encoding.md R93). -/
def opcodeMap : List (Byte × Instr) :=
  [(0x00#8, .nop), (0x01#8, .init), (0x02#8, .final), (0x11#8, .step4), (0x12#8, .swstep),
   (0x20#8, .crc32cW), (0x21#8, .crc32cD), (0x22#8, .neonD), (0x30#8, .wstep), (0x40#8, .extend)]

/-- The command a word stands for, or why it stands for none (30_encoding.md R93, R94). -/
def decodeWord (w : Word) : Except DecodeError Instr :=
  if rsvField w ≠ 0#16 then .error .reservedBits
  else if opcField w = step1Opcode then .ok (.step1 (immField w))
  else match opcodeMap.lookup (opcField w) with
    | none => .error .unknownOpcode
    | some i => if immField w = 0#8 then .ok i else .error .strayImmediate

/-- The `OPC` of a command (30_encoding.md R93). -/
def opcodeOf : Instr → Byte
  | .nop => 0x00#8
  | .init => 0x01#8
  | .final => 0x02#8
  | .step1 _ => step1Opcode
  | .step4 => 0x11#8
  | .swstep => 0x12#8
  | .crc32cW => 0x20#8
  | .crc32cD => 0x21#8
  | .neonD => 0x22#8
  | .wstep => 0x30#8
  | .extend => 0x40#8

/-- The `IMM8` of a command: 0 but for `STEP1` (30_encoding.md R91). -/
def immOf : Instr → Byte
  | .nop => 0#8
  | .init => 0#8
  | .final => 0#8
  | .step1 imm8 => imm8
  | .step4 => 0#8
  | .swstep => 0#8
  | .crc32cW => 0#8
  | .crc32cD => 0#8
  | .neonD => 0#8
  | .wstep => 0#8
  | .extend => 0#8

/-- The word of a command: `RSV = 0`, then `IMM8`, then `OPC` (30_encoding.md R91). -/
def encode (i : Instr) : Word := 0#16 ++ immOf i ++ opcodeOf i

/-- The command that the decoder reads from the word `w` of `nbits` bits, the bits above 0. A command is
exactly one 32-bit word (30_encoding.md R96). -/
def decodeTableWord (nbits w : Nat) : Option Instr :=
  if nbits ≤ 32 then (decodeWord (BitVec.ofNat 32 (w % 2 ^ nbits))).toOption else none

end Sys2Proof
end

