-- ==== Sys2Proof/Machine/Checksum.lean ====
section
/-! DEFINITION. The checksum functions: the tables, the steps and the laws' `Extend`
(40_table_lookup_datapath.md, 41_word_intrinsic_step.md section 1, 42_alignment_driver.md R205). -/
namespace Sys2Proof.Machine

/-- `POLY_R`: Castagnoli's 0x1EDC6F41 with its 32 bits reversed (40_table_lookup_datapath.md R120). -/
def polyR : Word := 0x82F63B78#32

/-- One round of the loop that builds `T0` (40_table_lookup_datapath.md R121). -/
def tableRound (c : Word) : Word := (c >>> 1) ^^^ (if c.getLsbD 0 then polyR else 0#32)

/-- `n` rounds of that loop. -/
def tableRounds : Nat → Word → Word
  | 0, c => c
  | n + 1, c => tableRounds n (tableRound c)

/-- The ROM `T0` (40_table_lookup_datapath.md R121, R123). -/
def t0 (b : Byte) : Word := tableRounds 8 (b.setWidth 32)

/-- The entry of the next table from the entry of one table: one more byte-shift
(40_table_lookup_datapath.md R122). -/
def nextTable (entry : Word) : Word := t0 (entry.setWidth 8) ^^^ (entry >>> 8)

/-- The ROM `T1` (40_table_lookup_datapath.md R122). -/
def t1 (b : Byte) : Word := nextTable (t0 b)

/-- The ROM `T2` (40_table_lookup_datapath.md R122). -/
def t2 (b : Byte) : Word := nextTable (t1 b)

/-- The ROM `T3` (40_table_lookup_datapath.md R122). -/
def t3 (b : Byte) : Word := nextTable (t2 b)

/-- The byte step `S1(s, b)` (40_table_lookup_datapath.md R124). -/
def s1 (s : Word) (b : Byte) : Word := t0 ((s ^^^ b.setWidth 32).setWidth 8) ^^^ (s >>> 8)

/-- The four-byte fold `S4(s, w)` (40_table_lookup_datapath.md R125). -/
def s4 (s w : Word) : Word :=
  let c := s ^^^ w
  t3 (c.extractLsb' 0 8) ^^^ t2 (c.extractLsb' 8 8) ^^^ t1 (c.extractLsb' 16 8) ^^^ t0 (c.extractLsb' 24 8)

/-- `RawCRC(s, bytes)`: the byte step folded over a byte sequence (40_table_lookup_datapath.md R126). -/
def rawCRC (s : Word) : List Byte → Word
  | [] => s
  | b :: rest => rawCRC (s1 s b) rest

/-- `CRC32C_W(s, w)`: one 4-byte hardware CRC32C instruction (41_word_intrinsic_step.md R150). -/
def crc32cWFn (s w : Word) : Word := s4 s w

/-- `CRC32C_D(s, d)`: one 8-byte hardware CRC32C instruction, or one NEON-equivalent one
(41_word_intrinsic_step.md R151, R152). -/
def crc32cDFn (s : Word) (d : Dword) : Word := s4 (s4 s (d.extractLsb' 0 32)) (d.extractLsb' 32 32)

/-- The software fallback of the accelerated step: two four-byte folds (41_word_intrinsic_step.md R158). -/
def swStepFn (s lo hi : Word) : Word := s4 (s4 s lo) hi

/-- The accelerated step with two 4-byte instructions (41_word_intrinsic_step.md R159, R160). -/
def hw4StepFn (s lo hi : Word) : Word := crc32cWFn (crc32cWFn s lo) hi

/-- `BatchCRC(s, bytes)`: the wide batch unit on the raw accumulator (41_word_intrinsic_step.md R162, R163). -/
def batchCRC (s : Word) (bytes : List Byte) : Word := rawCRC s bytes

/-- The complement applied before and after a checksum: XOR with 0xFFFFFFFF (00_scope.md R15). -/
def complement (x : Word) : Word := x ^^^ 0xFFFFFFFF#32

/-- The checksum function `Extend(crc, bytes)` (42_alignment_driver.md R205). -/
def extendCRC (crc : Word) (bytes : List Byte) : Word := complement (rawCRC (complement crc) bytes)

end Sys2Proof.Machine
end

