-- ==== Sys2Proof/Machine/State.lean ====
section
/-! DEFINITION. The state of the machine (10_state.md), the reasons a step can stop, and the state after
reset. -/
namespace Sys2Proof.Machine

/-- `CAP.SEL` (10_state.md R23): which implementation of the accelerated step is active. -/
inductive Sel where
  /-- 0: the software table path. -/
  | sw
  /-- 1: the 4-byte hardware CRC32C instruction. -/
  | hw4
  /-- 2: the 8-byte hardware CRC32C instruction. -/
  | hw8
  /-- 3: the NEON-equivalent instruction. -/
  | neon
  deriving DecidableEq, Repr

/-- The 3 bits of `CAP` and of its latched copy `CAPL` (10_state.md R23, R35). -/
structure Cap where
  sel : Sel
  batchEn : Bool
  deriving DecidableEq, Repr

/-- The fields of `STATUS` (10_state.md R22); its reserved bits read 0. -/
structure Status where
  busy : Bool
  done : Bool
  err : Bool
  errcode : BitVec 4
  deriving DecidableEq, Repr

/-- The phases of the alignment driver (10_state.md R34, 42_alignment_driver.md R185). -/
inductive Phase where
  | idle
  | batch
  | align
  | g16
  | g8
  | tail
  | final
  deriving DecidableEq, Repr

/-- The causes of an error (60_exceptions.md R230); the engine has no other. -/
inductive EngineError where
  /-- Code 1: the word written to `CMD` is no command (R231). -/
  | illegal
  /-- Code 2: the command's unit is absent (R232). -/
  | unavail
  /-- Code 3: a write while busy (R233). -/
  | busy
  /-- Code 4: the buffer passes the top of the address space (R234). -/
  | range
  /-- Code 5: a buffer read got an error response (R235). -/
  | busErr
  deriving DecidableEq, Repr

/-- The registers of the window, in the order of their offsets (10_state.md R20). -/
inductive Reg where
  | cmd
  | status
  | cap
  | crcIn
  | addrLo
  | addrHi
  | lenLo
  | lenHi
  | dinLo
  | dinHi
  | accLo
  | accHi
  | result
  | curLo
  | curHi
  | feat
  deriving DecidableEq, Repr

/-- What happens outside the engine between two of its steps, or that the engine gets its turn
(00_scope.md R12, 42_alignment_driver.md R184). Addresses of accesses are addresses of the host's space,
those of stores are buffer addresses. -/
inductive Input where
  /-- A 32-bit host write: `WR` (30_encoding.md R98). -/
  | write (addr : Nat) (value : Word)
  /-- A 32-bit host read: `RD` (30_encoding.md R98). -/
  | read (addr : Nat)
  /-- `POLL` (30_encoding.md R98): read `STATUS` until `BUSY` reads 0. -/
  | poll
  /-- A host access of `bytes` bytes that is not 32 bits wide (20_memory.md R69). -/
  | otherAccess (addr bytes : Nat)
  /-- A byte stored into the buffer memory by the host, or by anyone (00_scope.md R12, 20_memory.md R71). -/
  | store (addr : Nat) (byte : Byte)
  /-- The engine takes its next micro-step before the host goes on (42_alignment_driver.md R184). -/
  | engine
  /-- Reset is asserted (70_reset_and_hazards.md R260). -/
  | reset
  deriving DecidableEq, Repr

/-- Why a step stops with a fault. The engine itself has none (60_exceptions.md R240). -/
inductive Fault where
  /-- Raised by a store to a buffer address of more than `P_ADDR_W` bits: there is no such address
  (20_memory.md R60). Safe: the step stops. -/
  | addressOutsideSpace
  deriving DecidableEq, Repr

/-- Why a step has no meaning. -/
inductive Refusal where
  /-- Raised by `exec` for a command without a meaning yet. Safe. No arm of `exec` raises it now. -/
  | notModelled (mnemonic : String)
  /-- Raised by a host access that is not 32 bits wide at an offset that is a multiple of 4
  (20_memory.md R69, 93_implementation_defined.md U2). Safe: the step stops. -/
  | hostAccessShape
  /-- Raised by a host access below the register window: it reaches another device (log 9). Safe: the
  step stops. -/
  | outsideWindow
  /-- Raised by a buffer read or a store at a place whose reads have side effects
  (20_memory.md R72, 93_implementation_defined.md U4; log 4). Safe: the step stops. -/
  | sideEffect
  deriving DecidableEq, Repr

/-- The machine: the engine's registers and hidden state, and what stands around it as far as its steps
read or change it. Plain data. -/
structure State where
  /-- The parameters (00_scope.md R5 to R9): constant, no step changes them. -/
  params : Config.Params
  /-- `STATUS` (10_state.md R22). -/
  status : Status
  /-- `CAP` (10_state.md R23). -/
  cap : Cap
  /-- `CRC_IN` (10_state.md R24). -/
  crcIn : Word
  /-- `ADDR` (10_state.md R26). -/
  addr : Dword
  /-- `LEN` (10_state.md R27). -/
  len : Dword
  /-- `DIN` (10_state.md R28). -/
  din : Dword
  /-- `ACC` (10_state.md R25). -/
  acc : Dword
  /-- `RESULT` (10_state.md R29). -/
  result : Word
  /-- `CUR` (10_state.md R30; log 5). -/
  cur : Position
  /-- `END` (10_state.md R31; log 5). -/
  endPos : Position
  /-- `PHASE` (10_state.md R34). -/
  phase : Phase
  /-- `CAPL` (10_state.md R35). -/
  capl : Cap
  /-- The buffer memory (20_memory.md R60): the places that answer a read with a byte, by rising
  address; a place not listed answers with an error response (20_memory.md R73; log 3). -/
  mem : List Host.Cell
  /-- The buffer places stored to since the last `EXTEND` was accepted, while it was in progress
  (20_memory.md R71; log 6), newest first, without repeats. The model's own field. -/
  touched : List Nat
  /-- How many free draws were taken (log 7). The model's own field. -/
  draws : Nat
  /-- What happens outside the engine next, oldest first (log 1). The model's own field. -/
  inputs : List Input
  /-- What host reads returned, newest first (log 8). The model's own field. -/
  reads : List Word
  deriving DecidableEq, Repr

/-- `STATUS` after reset (10_state.md R41). -/
def Status.reset : Status := { busy := false, done := false, err := false, errcode := 0 }

/-- `CAP` and `CAPL` after reset (10_state.md R41). -/
def Cap.reset : Cap := { sel := .sw, batchEn := false }

/-- The state right after reset of an engine with the parameters `p` (10_state.md R41), nothing in its
buffer memory and nothing happening outside it. -/
def State.resetOf (p : Config.Params) : State where
  params := p
  status := Status.reset
  cap := Cap.reset
  crcIn := 0
  addr := 0
  len := 0
  din := 0
  acc := 0
  result := 0
  cur := 0
  endPos := 0
  phase := .idle
  capl := Cap.reset
  mem := []
  touched := []
  draws := 0
  inputs := []
  reads := []

/-- The machine right after reset, for the sample parameters (log 2). -/
def State.reset : State := State.resetOf Config.sample

end Sys2Proof.Machine
end

