-- ==== Sys2Proof/Machine/Flags.lean ====
section
/-! DEFINITION. The fields of `STATUS`: what sets and clears each (10_state.md R22, R37,
60_exceptions.md R237). No arithmetic command computes a flag. -/
namespace Sys2Proof.Machine

/-- The cause code of an error (60_exceptions.md R230). -/
def EngineError.code : EngineError → BitVec 4
  | .illegal => 1#4
  | .unavail => 2#4
  | .busy => 3#4
  | .range => 4#4
  | .busErr => 5#4

/-- `raise Error(c)` on the fields: the first code is kept (60_exceptions.md R237). -/
def Status.record (st : Status) (e : EngineError) : Status :=
  { st with err := true, errcode := if st.err then st.errcode else e.code }

/-- What a write of `v` to `STATUS` leaves: bit 2 of `v` clears `ERR` and `ERRCODE` (10_state.md R22). -/
def Status.write (st : Status) (v : Word) : Status :=
  if v.getLsbD 2 then { st with err := false, errcode := 0#4 } else st

/-- What `STATUS` reads as (10_state.md R22). -/
def Status.toWord (st : Status) : Word :=
  (if st.busy then 1#32 else 0#32) ||| (if st.done then 2#32 else 0#32) ||| (if st.err then 4#32 else 0#32)
    ||| (st.errcode.setWidth 32 <<< 4)

/-- `raise Error(c)` (60_exceptions.md R237): the one way an error is recorded. -/
def raiseError (e : EngineError) (s : State) : State := { s with status := s.status.record e }

/-- `STATUS.DONE <- 0`, the start of every acceptance (30_encoding.md R100). -/
def clearDone (s : State) : State := { s with status := { s.status with done := false } }

/-- `STATUS.DONE <- 1`, the completion of an accepted command (10_state.md R22). -/
def setDone (s : State) : State := { s with status := { s.status with done := true } }

/-- `STATUS.BUSY <- b`. -/
def setBusy (b : Bool) (s : State) : State := { s with status := { s.status with busy := b } }

end Sys2Proof.Machine
end

