-- ==== Sys2Proof/Machine/Operands.lean ====
section
/-! DEFINITION. The operands of the commands (30_encoding.md R92) and the halves of the 64-bit registers
(20_memory.md R65). -/
namespace Sys2Proof.Machine

/-- `zext_64(v)` (00_scope.md R15). -/
def zext64 (v : Word) : Dword := v.setWidth 64

/-- Bits 31:0 of a 64-bit register: its `_LO` half (20_memory.md R65). -/
def loHalf (d : Dword) : Word := d.extractLsb' 0 32

/-- Bits 63:32 of a 64-bit register: its `_HI` half (20_memory.md R65). -/
def hiHalf (d : Dword) : Word := d.extractLsb' 32 32

/-- `d` with bits 31:0 replaced (10_state.md R38). -/
def setLoHalf (d : Dword) (v : Word) : Dword := hiHalf d ++ v

/-- `d` with bits 63:32 replaced (10_state.md R38). -/
def setHiHalf (d : Dword) (v : Word) : Dword := v ++ loHalf d

/-- The operand `ACC[31:0]`. -/
def State.acc32 (s : State) : Word := loHalf s.acc

/-- The operand `DIN[31:0]`. -/
def State.din32 (s : State) : Word := loHalf s.din

/-- The operand `DIN[63:32]`. -/
def State.dinHi32 (s : State) : Word := hiHalf s.din

/-- `CUR` as a number; addresses are computed without wrapping (20_memory.md R75). -/
def State.curNat (s : State) : Nat := s.cur.toNat

/-- `END` as a number. -/
def State.endNat (s : State) : Nat := s.endPos.toNat

/-- `END − CUR`: how many bytes of the buffer remain. -/
def State.remaining (s : State) : Nat := s.endNat - s.curNat

/-- Bits 31:0 of `CUR`, as `CUR_LO` reads (10_state.md R30). -/
def State.curLo (s : State) : Word := s.cur.extractLsb' 0 32

/-- Bits 63:32 of `CUR`, as `CUR_HI` reads (10_state.md R30). -/
def State.curHi (s : State) : Word := s.cur.extractLsb' 32 32

/-- A number narrowed to the `P_ADDR_W + 1` bits of `CUR` and `END` (10_state.md R30, R31; log 5). -/
def fitPosition (addrW n : Nat) : Position := BitVec.ofNat 65 (n % 2 ^ (addrW + 1))

/-- The number named by `SEL` in `CAP` (10_state.md R23). -/
def Sel.toBits : Sel → BitVec 2
  | .sw => 0#2
  | .hw4 => 1#2
  | .hw8 => 2#2
  | .neon => 3#2

/-- The selection a 2-bit number names (10_state.md R23). -/
def Sel.ofBits (v : BitVec 2) : Sel :=
  if v = 1#2 then .hw4 else if v = 2#2 then .hw8 else if v = 3#2 then .neon else .sw

/-- Whether the unit a selection names is present (10_state.md R23, 41_word_intrinsic_step.md R154). -/
def Sel.present (p : Config.Params) : Sel → Bool
  | .sw => true
  | .hw4 => p.hw4
  | .hw8 => p.hw8
  | .neon => p.neon

/-- What `CAP` reads as: `SEL` in bits 1:0, `BATCH_EN` in bit 2, 0 above (10_state.md R23). -/
def Cap.toWord (c : Cap) : Word := (c.sel.toBits.setWidth 32) ||| (if c.batchEn then 4#32 else 0#32)

/-- What `CAP` becomes when `v` is written to it: write-any-read-legal (10_state.md R23). -/
def Cap.ofWord (p : Config.Params) (v : Word) : Cap where
  sel := let named := Sel.ofBits (v.extractLsb' 0 2)
         if named.present p then named else .sw
  batchEn := p.batch && v.getLsbD 2

/-- What `FEAT` reads as: the units present (10_state.md R32). -/
def featWord (p : Config.Params) : Word :=
  1#32 ||| (if p.hw4 then 2#32 else 0#32) ||| (if p.hw8 then 4#32 else 0#32)
    ||| (if p.neon then 8#32 else 0#32) ||| (if p.batch then 16#32 else 0#32)

end Sys2Proof.Machine
end

