-- ==== Sys2Proof/Machine/Ops.lean ====
section
/-! DEFINITION. The operations over the buffer memory and the registers, the acceptance of a command, and the
abort of an `EXTEND`. -/
namespace Sys2Proof.Machine

/-! ### The buffer memory (20_memory.md) -/

/-- The canonical form of the buffer memory: addresses strictly rising. What an unlisted place answers
(`Memory.unlisted`) is no byte, so no cell can equal it. -/
abbrev Memory.wf (m : List Host.Cell) : Prop := m.Pairwise (fun x y => x.1 < y.1)

/-- What a read of an unlisted place answers: no byte, an error response (20_memory.md R73). DESIGN CHOICE
(log 3). -/
def Memory.unlisted : Option Byte := none

/-- The byte a place holds, if it answers with one. -/
def Memory.lookup : List Host.Cell → Nat → Option Byte
  | [], _ => Memory.unlisted
  | (k, b) :: rest, a => if k = a then some b else Memory.lookup rest a

/-- The bytes that the `n` places from `a` hold, in address order, if each of them holds one. -/
def Memory.bytes (m : List Host.Cell) : Nat → Nat → Option (List Byte)
  | _, 0 => some []
  | a, n + 1 =>
    match Memory.lookup m a, Memory.bytes m (a + 1) n with
    | some b, some rest => some (b :: rest)
    | _, _ => none

/-- The memory after a byte is stored, in canonical form. -/
def Memory.insert : List Host.Cell → Nat → Byte → List Host.Cell
  | [], a, b => [(a, b)]
  | (k, c) :: rest, a, b =>
    if a < k then (a, b) :: (k, c) :: rest
    else if a = k then (a, b) :: rest
    else (k, c) :: Memory.insert rest a b

/-- Whether a range holds a place. -/
def inRange (a : Nat) (r : Config.Range) : Bool := decide (r.base ≤ a ∧ a < r.base + r.size)

/-- Whether a read of a place has a side effect (20_memory.md R72; log 4). -/
def sideEffectAt (p : Config.Params) (a : Nat) : Bool := p.sideEffects.any (inRange a)

/-- Whether a read of any of the `n` places from `a` has a side effect. -/
def sideEffectIn (p : Config.Params) : Nat → Nat → Bool
  | _, 0 => false
  | a, n + 1 => sideEffectAt p a || sideEffectIn p (a + 1) n

/-- What the read port gets from one place: the byte it holds, a free draw where the place was stored to
during the `EXTEND` in progress (20_memory.md R71; log 6), nothing for an error response (R73). -/
def State.busByte (s : State) (a : Nat) : Option Byte :=
  match Memory.lookup s.mem a with
  | none => none
  | some b => some (if a ∈ s.touched then Config.freeByte s.draws a else b)

/-- What the read port gets from the `n` places from `a`, in address order; nothing when one of them
answers with an error. -/
def State.busBytes (s : State) : Nat → Nat → Option (List Byte)
  | _, 0 => some []
  | a, n + 1 =>
    match s.busByte a, s.busBytes (a + 1) n with
    | some b, some rest => some (b :: rest)
    | _, _ => none

/-- What a buffer read answers. -/
inductive ReadResult (α : Type) where
  /-- The bytes, as a value. -/
  | data (x : α)
  /-- An error response (20_memory.md R73). -/
  | busError
  /-- The read would have a side effect (20_memory.md R72). -/
  | sideEffect
  deriving DecidableEq, Repr

/-- A value computed from what a read answers. -/
def ReadResult.map {α β : Type} (f : α → β) : ReadResult α → ReadResult β
  | .data x => .data (f x)
  | .busError => .busError
  | .sideEffect => .sideEffect

/-- A second read after a first one that answered with data (the first failing one ends the sequence). -/
def ReadResult.andThen {α β : Type} (r : ReadResult α) (k : α → ReadResult β) : ReadResult β :=
  match r with
  | .data x => k x
  | .busError => .busError
  | .sideEffect => .sideEffect

/-- `MemBytes(a, n)` (20_memory.md R62). A place with side effects among them goes before an error
(log 11). -/
def State.memBytes (s : State) (a n : Nat) : ReadResult (List Byte) :=
  if sideEffectIn s.params a n then .sideEffect
  else match s.busBytes a n with
    | some bytes => .data bytes
    | none => .busError

/-- The bytes assembled little-endian: the first is bits 7:0 (20_memory.md R62). -/
def littleEndian : List Byte → Nat
  | [] => 0
  | b :: rest => b.toNat + 256 * littleEndian rest

/-- `MemRead(a, n)` as a value of `8 * n` bits (20_memory.md R62). -/
def State.memRead (s : State) (a n : Nat) : ReadResult (BitVec (8 * n)) :=
  (s.memBytes a n).map (fun bytes => BitVec.ofNat (8 * n) (littleEndian bytes))

/-! ### Registers -/

/-- `ACC <- zext_64(v)` (10_state.md R25). -/
def setAcc (v : Word) (s : State) : State := { s with acc := zext64 v }

/-- `CUR <- n` (10_state.md R30). -/
def setCur (n : Nat) (s : State) : State := { s with cur := fitPosition s.params.addrW n }

/-- `END <- n` (10_state.md R31). -/
def setEnd (n : Nat) (s : State) : State := { s with endPos := fitPosition s.params.addrW n }

/-- `CUR <- CUR + n`. -/
def advance (n : Nat) (s : State) : State := setCur (s.curNat + n) s

/-- `PHASE <- p` (10_state.md R34). -/
def setPhase (p : Phase) (s : State) : State := { s with phase := p }

/-- `RESULT <- ACC[31:0] ^ 0xFFFFFFFF` (10_state.md R29). -/
def writeResult (s : State) : State := { s with result := complement s.acc32 }

/-! ### Acceptance and errors -/

/-- Whether the unit a command needs is present (30_encoding.md R93, 60_exceptions.md R232). -/
def unitPresent (p : Config.Params) : Instr → Bool
  | .crc32cW => p.hw4
  | .crc32cD => p.hw8
  | .neonD => p.neon
  | .nop => true
  | .init => true
  | .final => true
  | .step1 _ => true
  | .step4 => true
  | .swstep => true
  | .wstep => true
  | .extend => true

/-- The acceptance procedure of a decoded command, up to the command's own rule `k`
(30_encoding.md R100): BUSY first, then `DONE <- 0`, then UNAVAIL when the command's unit is absent. -/
def accept (i : Instr) (k : State → State) (s : State) : Host.Outcome State Fault Refusal :=
  if s.status.busy then .next (raiseError .busy s)
  else if unitPresent s.params i then .next (k (clearDone s))
  else .next (raiseError .unavail (clearDone s))

/-- An atomic command: its whole effect within the acceptance step, then `DONE <- 1`
(30_encoding.md R100, R101). -/
def atomic (i : Instr) (effect : State → State) (s : State) : Host.Outcome State Fault Refusal :=
  accept i (fun s => setDone (effect s)) s

/-- A word that is no command, written to `CMD` (30_encoding.md R94, R100; 60_exceptions.md R231). -/
def rejectWord (s : State) : Host.Outcome State Fault Refusal :=
  if s.status.busy then .next (raiseError .busy s)
  else .next (raiseError .illegal (clearDone s))

/-- The abort of an `EXTEND` on BUSERR (60_exceptions.md R238). `ACC` and `CUR` are drawn once
(93_implementation_defined.md U5; log 10); `RESULT` is kept. -/
def abort (s : State) : State :=
  let r := raiseError .busErr s
  { r with
    status := { r.status with busy := false, done := false }
    phase := .idle
    acc := zext64 (Config.freeAcc s.draws)
    cur := fitPosition s.params.addrW (Config.freeCur s.draws).toNat
    draws := s.draws + 1 }

/-- How a micro-step ends after its reads (42_alignment_driver.md R198): with its results, with the abort
that writes none of them, or refused. -/
def finishReads (s : State) (r : ReadResult State) : Host.Outcome State Fault Refusal :=
  match r with
  | .data t => .next t
  | .busError => .next (abort s)
  | .sideEffect => .refused .sideEffect

/-- A byte stored into the buffer memory by the host or anyone (20_memory.md R71, R72;
93_implementation_defined.md U3). During an `EXTEND` a place of its buffer becomes one that reads as a
free draw; if its byte was consumed already, the accumulator computed from it becomes unspecified (log 6). -/
def storeByte (a : Nat) (b : Byte) (s : State) : Host.Outcome State Fault Refusal :=
  if 2 ^ s.params.addrW ≤ a then .fault .addressOutsideSpace
  else if sideEffectAt s.params a then .refused .sideEffect
  else
    let stored := { s with mem := Memory.insert s.mem a b }
    if s.status.busy ∧ s.addr.toNat ≤ a ∧ a < s.addr.toNat + s.len.toNat then
      .next { stored with
        touched := if a ∈ s.touched then s.touched else a :: s.touched
        acc := if a < s.curNat then zext64 (Config.freeAcc s.draws) else s.acc
        draws := s.draws + 1 }
    else .next stored

/-- Reset is asserted (70_reset_and_hazards.md R260, R261): every piece of the engine's state takes its reset
value. The buffer memory is the host's, the parameters are fixed, and the other fields are the model's own
(10_state.md R42). -/
def resetEngine (s : State) : State :=
  { State.resetOf s.params with mem := s.mem, draws := s.draws, inputs := s.inputs, reads := s.reads }

end Sys2Proof.Machine
end

