-- ==== Sys2Proof/Machine/Control.lean ====
section
/-! DEFINITION. The control commands `NOP`, `INIT`, `FINAL` and the acceptance of `EXTEND`
(42_alignment_driver.md sections 1 and 2). -/
namespace Sys2Proof.Machine

/-- `NOP` (42_alignment_driver.md R180). -/
def execNop (s : State) : Host.Outcome State Fault Refusal :=
  atomic .nop (fun s => s) s

/-- `INIT` (42_alignment_driver.md R181). -/
def execInit (s : State) : Host.Outcome State Fault Refusal :=
  atomic .init (fun s => setAcc (complement s.crcIn) s) s

/-- `FINAL` (42_alignment_driver.md R182). -/
def execFinal (s : State) : Host.Outcome State Fault Refusal :=
  atomic .final writeResult s

/-- The phase after BATCH, or the first one without it (42_alignment_driver.md R191, R192). -/
def afterBatch (p : Config.Params) : Phase :=
  match p.align with
  | .align4 => .align
  | .omitted => .g16

/-- The phase in which an accepted `EXTEND` starts (42_alignment_driver.md R191). -/
def firstPhase (s : State) : Phase :=
  if s.cap.batchEn ∧ s.params.batchMin ≤ s.len.toNat then .batch else afterBatch s.params

/-- The acceptance step of `EXTEND` (42_alignment_driver.md R191). `touched` starts anew with it (log 6). -/
def beginExtend (s : State) : State :=
  { setPhase (firstPhase s)
      (setBusy true
        (setEnd (s.addr.toNat + s.len.toNat) (setCur s.addr.toNat (setAcc (complement s.crcIn) s)))) with
    capl := s.cap
    touched := [] }

/-- The acceptance check of `EXTEND`, with no truncation of the sum (42_alignment_driver.md R190). -/
def acceptExtend (s : State) : State :=
  if 2 ^ s.params.addrW < s.addr.toNat + s.len.toNat then raiseError .range s else beginExtend s

/-- `EXTEND` (42_alignment_driver.md R183): its acceptance. The micro-steps that follow are the engine's
own steps (Machine/Driver.lean). -/
def execExtend (s : State) : Host.Outcome State Fault Refusal :=
  accept .extend acceptExtend s

end Sys2Proof.Machine
end

