-- ==== Sys2Proof/Machine/TableLookup.lean ====
section
/-! DEFINITION. The commands of the table_lookup_datapath: `STEP1`, `STEP4` (40_table_lookup_datapath.md). -/
namespace Sys2Proof.Machine

/-- `STEP1 #imm8` (40_table_lookup_datapath.md R130). -/
def execStep1 (imm8 : Byte) (s : State) : Host.Outcome State Fault Refusal :=
  atomic (.step1 imm8) (fun s => setAcc (s1 s.acc32 imm8) s) s

/-- `STEP4` (40_table_lookup_datapath.md R131). -/
def execStep4 (s : State) : Host.Outcome State Fault Refusal :=
  atomic .step4 (fun s => setAcc (s4 s.acc32 s.din32) s) s

end Sys2Proof.Machine
end

