-- ==== Sys2Proof/Machine/WordStep.lean ====
section
/-! DEFINITION. The commands of the word_intrinsic_step: `SWSTEP`, `CRC32C.W`, `CRC32C.D`, `NEON.D`, `WSTEP`
(41_word_intrinsic_step.md). -/
namespace Sys2Proof.Machine

/-- `SWSTEP` (41_word_intrinsic_step.md R158). -/
def execSwstep (s : State) : Host.Outcome State Fault Refusal :=
  atomic .swstep (fun s => setAcc (swStepFn s.acc32 s.din32 s.dinHi32) s) s

/-- `CRC32C.W` (41_word_intrinsic_step.md R155). -/
def execCrc32cW (s : State) : Host.Outcome State Fault Refusal :=
  atomic .crc32cW (fun s => setAcc (crc32cWFn s.acc32 s.din32) s) s

/-- `CRC32C.D` (41_word_intrinsic_step.md R156). -/
def execCrc32cD (s : State) : Host.Outcome State Fault Refusal :=
  atomic .crc32cD (fun s => setAcc (crc32cDFn s.acc32 s.din) s) s

/-- `NEON.D` (41_word_intrinsic_step.md R157). -/
def execNeonD (s : State) : Host.Outcome State Fault Refusal :=
  atomic .neonD (fun s => setAcc (crc32cDFn s.acc32 s.din) s) s

/-- The accelerated step on the 8 bytes in `DIN`, in the configuration `sel`
(41_word_intrinsic_step.md R159). -/
def wordStepReg (sel : Sel) (s : State) : Word :=
  match sel with
  | .sw => swStepFn s.acc32 s.din32 s.dinHi32
  | .hw4 => hw4StepFn s.acc32 s.din32 s.dinHi32
  | .hw8 => crc32cDFn s.acc32 s.din
  | .neon => crc32cDFn s.acc32 s.din

/-- `WSTEP` (41_word_intrinsic_step.md R159). -/
def execWstep (s : State) : Host.Outcome State Fault Refusal :=
  atomic .wstep (fun s => setAcc (wordStepReg s.cap.sel s) s) s

end Sys2Proof.Machine
end

