-- ==== Sys2Proof/Machine/Dispatch.lean ====
section
/-! DEFINITION. `exec`: what writing a command's word to `CMD` does, one arm per command (30_encoding.md R100). -/
namespace Sys2Proof.Machine

def exec (i : Instr) (s : State) : Host.Outcome State Fault Refusal :=
  match i with
  | .nop => Sys2Proof.Machine.execNop s
  | .init => Sys2Proof.Machine.execInit s
  | .final => Sys2Proof.Machine.execFinal s
  | .step1 imm8 => Sys2Proof.Machine.execStep1 imm8 s
  | .step4 => Sys2Proof.Machine.execStep4 s
  | .swstep => Sys2Proof.Machine.execSwstep s
  | .crc32cW => Sys2Proof.Machine.execCrc32cW s
  | .crc32cD => Sys2Proof.Machine.execCrc32cD s
  | .neonD => Sys2Proof.Machine.execNeonD s
  | .wstep => Sys2Proof.Machine.execWstep s
  | .extend => Sys2Proof.Machine.execExtend s

end Sys2Proof.Machine
end

