-- ==== Sys2Proof/Machine/Driver.lean ====
section
/-! DEFINITION. The micro-steps of the alignment driver (41_word_intrinsic_step.md section 3,
42_alignment_driver.md R184 to R198). -/
namespace Sys2Proof.Machine

/-- The word step's new accumulator from the 8 bytes at `CUR`, read and folded as `sel` says
(41_word_intrinsic_step.md R160; the reads are those of 20_memory.md R70). -/
def wordStepAcc (sel : Sel) (s : State) : ReadResult Word :=
  match sel with
  | .sw => (s.memRead s.curNat 4).andThen fun w0 =>
      (s.memRead (s.curNat + 4) 4).map fun w1 => swStepFn s.acc32 w0 w1
  | .hw4 => (s.memRead s.curNat 4).andThen fun w0 =>
      (s.memRead (s.curNat + 4) 4).map fun w1 => hw4StepFn s.acc32 w0 w1
  | .hw8 => (s.memRead s.curNat 8).map fun d => crc32cDFn s.acc32 d
  | .neon => (s.memRead s.curNat 8).map fun d => crc32cDFn s.acc32 d

/-- `WordStepMem(sel)` (41_word_intrinsic_step.md R160). -/
def wordStepMem (sel : Sel) (s : State) : ReadResult State :=
  (wordStepAcc sel s).map fun v => advance 8 (setAcc v s)

/-- One byte at `CUR` folded by the byte step (42_alignment_driver.md R193, R196). -/
def byteStepMem (s : State) : ReadResult State :=
  (s.memRead s.curNat 1).map fun b => advance 1 (setAcc (s1 s.acc32 b) s)

/-- The length of the batch unit's prefix (41_word_intrinsic_step.md R165, 42_alignment_driver.md R192). -/
def batchPrefix (s : State) : Nat := s.remaining / s.params.batchChunk * s.params.batchChunk

/-- The micro-step of phase BATCH (42_alignment_driver.md R192). -/
def microBatch (s : State) : Host.Outcome State Fault Refusal :=
  finishReads s ((s.memBytes s.curNat (batchPrefix s)).map fun bytes =>
    let t := advance (batchPrefix s) (setAcc (batchCRC s.acc32 bytes) s)
    setPhase (if t.curNat = t.endNat then .final else afterBatch s.params) t)

/-- The micro-step of phase ALIGN (42_alignment_driver.md R193). -/
def microAlign (s : State) : Host.Outcome State Fault Refusal :=
  if s.curNat % 4 = 0 ∨ s.curNat = s.endNat then .next (setPhase .g16 s)
  else finishReads s (byteStepMem s)

/-- The micro-step of phase G16: two word steps (42_alignment_driver.md R194). -/
def microG16 (s : State) : Host.Outcome State Fault Refusal :=
  if 16 ≤ s.remaining then
    finishReads s ((wordStepMem s.capl.sel s).andThen (wordStepMem s.capl.sel))
  else .next (setPhase .g8 s)

/-- The micro-step of phase G8: one word step (42_alignment_driver.md R195). -/
def microG8 (s : State) : Host.Outcome State Fault Refusal :=
  if 8 ≤ s.remaining then finishReads s (wordStepMem s.capl.sel s)
  else .next (setPhase .tail s)

/-- The micro-step of phase TAIL (42_alignment_driver.md R196). -/
def microTail (s : State) : Host.Outcome State Fault Refusal :=
  if s.curNat ≠ s.endNat then finishReads s (byteStepMem s)
  else .next (setPhase .final s)

/-- The micro-step of phase FINAL (42_alignment_driver.md R197). -/
def microFinal (s : State) : Host.Outcome State Fault Refusal :=
  .next (setPhase .idle (setDone (setBusy false (writeResult s))))

/-- The engine's turn: the micro-step that `PHASE` alone chooses (42_alignment_driver.md R184). An idle
engine waits for the next host access (60_exceptions.md R240, 70_reset_and_hazards.md R262). -/
def microStep (s : State) : Host.Outcome State Fault Refusal :=
  match s.phase with
  | .idle => .next s
  | .batch => microBatch s
  | .align => microAlign s
  | .g16 => microG16 s
  | .g8 => microG8 s
  | .tail => microTail s
  | .final => microFinal s

end Sys2Proof.Machine
end

