-- ==== Sys2Proof/Machine/Registers.lean ====
section
/-! DEFINITION. Host reads and writes of the register window (10_state.md R20 to R40). A write to `CMD` stands
in Machine/HostBus.lean, because it runs a command. -/
namespace Sys2Proof.Machine

/-- The register window: offset and register (10_state.md R20). -/
def registerMap : List (Nat × Reg) :=
  [(0x00, .cmd), (0x04, .status), (0x08, .cap), (0x0C, .crcIn), (0x10, .addrLo), (0x14, .addrHi),
   (0x18, .lenLo), (0x1C, .lenHi), (0x20, .dinLo), (0x24, .dinHi), (0x28, .accLo), (0x2C, .accHi),
   (0x30, .result), (0x34, .curLo), (0x38, .curHi), (0x3C, .feat)]

/-- Where a 32-bit host access lands. -/
inductive Place where
  /-- A register of the window. -/
  | register (r : Reg)
  /-- An offset of 0x40 or above (10_state.md R33). -/
  | reserved
  /-- An offset that is no multiple of 4 (20_memory.md R69). -/
  | misaligned
  /-- Below the window: another device (log 9). -/
  | outside
  deriving DecidableEq, Repr

/-- Where a 32-bit host access at a host address lands (10_state.md R20, R33; 20_memory.md R69). -/
def placeOf (p : Config.Params) (addr : Nat) : Place :=
  if addr < p.regBase then .outside
  else if (addr - p.regBase) % 4 ≠ 0 then .misaligned
  else match registerMap.lookup (addr - p.regBase) with
    | some r => .register r
    | none => .reserved

/-- Whether a write to a register is rejected with BUSY while an `EXTEND` is in progress
(10_state.md R20, R39). -/
def rejectedWhileBusy : Reg → Bool
  | .cmd => true
  | .status => false
  | .cap => true
  | .crcIn => true
  | .addrLo => true
  | .addrHi => true
  | .lenLo => true
  | .lenHi => true
  | .dinLo => true
  | .dinHi => true
  | .accLo => true
  | .accHi => false
  | .result => false
  | .curLo => false
  | .curHi => false
  | .feat => false

/-- What an accepted write of `v` to a register sets (10_state.md R22, R23, R38); a write to a read-only
register is ignored (R39). `CMD` holds nothing. -/
def setReg (r : Reg) (v : Word) (s : State) : State :=
  match r with
  | .cmd => s
  | .status => { s with status := s.status.write v }
  | .cap => { s with cap := Cap.ofWord s.params v }
  | .crcIn => { s with crcIn := v }
  | .addrLo => { s with addr := setLoHalf s.addr v }
  | .addrHi => { s with addr := setHiHalf s.addr v }
  | .lenLo => { s with len := setLoHalf s.len v }
  | .lenHi => { s with len := setHiHalf s.len v }
  | .dinLo => { s with din := setLoHalf s.din v }
  | .dinHi => { s with din := setHiHalf s.din v }
  | .accLo => setAcc v s
  | .accHi => s
  | .result => s
  | .curLo => s
  | .curHi => s
  | .feat => s

/-- A host write of `v` to a register other than `CMD` (10_state.md R38, R39). -/
def writeReg (r : Reg) (v : Word) (s : State) : State :=
  if s.status.busy ∧ rejectedWhileBusy r then raiseError .busy s else setReg r v s

/-- The defined value of a register (10_state.md R20 to R32). -/
def regValue (r : Reg) (s : State) : Word :=
  match r with
  | .cmd => 0#32
  | .status => s.status.toWord
  | .cap => s.cap.toWord
  | .crcIn => s.crcIn
  | .addrLo => loHalf s.addr
  | .addrHi => hiHalf s.addr
  | .lenLo => loHalf s.len
  | .lenHi => hiHalf s.len
  | .dinLo => loHalf s.din
  | .dinHi => hiHalf s.din
  | .accLo => loHalf s.acc
  | .accHi => 0#32
  | .result => s.result
  | .curLo => s.curLo
  | .curHi => s.curHi
  | .feat => featWord s.params

/-- Whether a read of a register while busy returns an unspecified value (10_state.md R40). -/
def unspecifiedWhileBusy : Reg → Bool
  | .accLo => true
  | .curLo => true
  | .curHi => true
  | .cmd => false
  | .status => false
  | .cap => false
  | .crcIn => false
  | .addrLo => false
  | .addrHi => false
  | .lenLo => false
  | .lenHi => false
  | .dinLo => false
  | .dinHi => false
  | .accHi => false
  | .result => false
  | .feat => false

/-- The host receives the value of its read. -/
def deliver (v : Word) (s : State) : State := { s with reads := v :: s.reads }

/-- A host read of a register: its value, or a fresh draw where that is unspecified
(10_state.md R40, 93_implementation_defined.md U1; log 7). -/
def readReg (r : Reg) (s : State) : State :=
  if s.status.busy ∧ unspecifiedWhileBusy r then
    { deliver (Config.freeRead s.draws) s with draws := s.draws + 1 }
  else deliver (regValue r s) s

end Sys2Proof.Machine
end

