-- ==== Sys2Proof/Machine/HostBus.lean ====
section
/-! DEFINITION. What happens outside the engine, one input at a time, and the host's pseudo-instructions
(20_memory.md R69, R77; 30_encoding.md R98 to R100; 70_reset_and_hazards.md R260). -/
namespace Sys2Proof.Machine

/-- A write of `w` to `CMD` (10_state.md R21, 30_encoding.md R97, R100): a word written while busy is not
decoded. -/
def writeCmd (w : Word) (s : State) : Host.Outcome State Fault Refusal :=
  if s.status.busy then .next (raiseError .busy s)
  else match decodeWord w with
    | .ok i => exec i s
    | .error _ => rejectWord s

/-- A 32-bit host write (10_state.md R33, R38, R39; 20_memory.md R69). -/
def hostWrite (addr : Nat) (v : Word) (s : State) : Host.Outcome State Fault Refusal :=
  match placeOf s.params addr with
  | .register .cmd => writeCmd v s
  | .register r => .next (writeReg r v s)
  | .reserved => .next s
  | .misaligned => .refused .hostAccessShape
  | .outside => .refused .outsideWindow

/-- A 32-bit host read (10_state.md R33, R40; 20_memory.md R69). -/
def hostRead (addr : Nat) (s : State) : Host.Outcome State Fault Refusal :=
  match placeOf s.params addr with
  | .register r => .next (readReg r s)
  | .reserved => .next (deliver 0#32 s)
  | .misaligned => .refused .hostAccessShape
  | .outside => .refused .outsideWindow

/-- One read of a `POLL` (30_encoding.md R98): the host reads `STATUS`; while `BUSY` reads 1 the engine takes
a micro-step and the host reads again (log 1). -/
def hostPoll (s : State) : State :=
  let t := readReg .status s
  if s.status.busy then { t with inputs := .engine :: .poll :: t.inputs } else t

/-- The effect of one input on the state it is taken from. -/
def handleInput (x : Input) (s : State) : Host.Outcome State Fault Refusal :=
  match x with
  | .write addr v => hostWrite addr v s
  | .read addr => hostRead addr s
  | .poll => .next (hostPoll s)
  | .otherAccess _ _ => .refused .hostAccessShape
  | .store a b => storeByte a b s
  | .engine => microStep s
  | .reset => .next (resetEngine s)

/-- The next thing that happens: the oldest input, or, when there is none, the engine's turn. -/
def nextEvent (s : State) : Host.Outcome State Fault Refusal :=
  match s.inputs with
  | [] => microStep s
  | x :: rest => handleInput x { s with inputs := rest }

/-! ### Host notation and pseudo-instructions (30_encoding.md R98, R99) -/

/-- The offset of a register in the window (10_state.md R20). -/
def offsetOf : Reg → Nat
  | .cmd => 0x00
  | .status => 0x04
  | .cap => 0x08
  | .crcIn => 0x0C
  | .addrLo => 0x10
  | .addrHi => 0x14
  | .lenLo => 0x18
  | .lenHi => 0x1C
  | .dinLo => 0x20
  | .dinHi => 0x24
  | .accLo => 0x28
  | .accHi => 0x2C
  | .result => 0x30
  | .curLo => 0x34
  | .curHi => 0x38
  | .feat => 0x3C

/-- `WR r, v`. -/
def wr (p : Config.Params) (r : Reg) (v : Word) : Input := .write (p.regBase + offsetOf r) v

/-- `RD r`. -/
def rd (p : Config.Params) (r : Reg) : Input := .read (p.regBase + offsetOf r)

/-- A bare mnemonic: `WR CMD, <encoded word>`. -/
def command (p : Config.Params) (i : Instr) : Input := wr p .cmd (encode i)

/-- `LDIN v`. -/
def ldin (p : Config.Params) (v : Dword) : List Input := [wr p .dinLo (loHalf v), wr p .dinHi (hiHalf v)]

/-- `LDIN32 v`. -/
def ldin32 (p : Config.Params) (v : Word) : List Input := [wr p .dinLo v]

/-- `SETBUF a, n`. -/
def setbuf (p : Config.Params) (a n : Dword) : List Input :=
  [wr p .addrLo (loHalf a), wr p .addrHi (hiHalf a), wr p .lenLo (loHalf n), wr p .lenHi (hiHalf n)]

/-- `SETCAP sel, b`: the written word is `sel | (b << 2)`. -/
def setcap (p : Config.Params) (sel b : Word) : List Input := [wr p .cap (sel ||| (b <<< 2))]

/-- `CLRERR`. -/
def clrerr (p : Config.Params) : List Input := [wr p .status 4#32]

/-- `STEPB b0, ..., bk`. -/
def stepb (p : Config.Params) (bytes : List Byte) : List Input := bytes.map fun b => command p (.step1 b)

/-- `CRC32C crc, a, n`. -/
def crc32c (p : Config.Params) (crc : Word) (a n : Dword) : List Input :=
  [wr p .crcIn crc] ++ setbuf p a n ++ [command p .extend, .poll, rd p .result]

/-- `CRC32C.BYTES crc, b0, ..., bk`. -/
def crc32cBytes (p : Config.Params) (crc : Word) (bytes : List Byte) : List Input :=
  [wr p .crcIn crc, command p .init] ++ stepb p bytes ++ [command p .final, rd p .result]

end Sys2Proof.Machine
end

