-- ==== Sys2Proof/Machine/Step.lean ====
section
/-! DEFINITION. One step of the machine, and how a command is placed where the next step finds it. -/
namespace Sys2Proof.Machine

/-- One step: the next thing that happens outside the engine, or else the engine's next micro-step
(00_scope.md R12, 20_memory.md R77, 42_alignment_driver.md R184). -/
def step (s : State) : Host.Outcome State Fault Refusal := nextEvent s

/-- `s` with the write of the word `w` of `nbits` bits to `CMD` as the very next input: the engine fetches no
instructions (20_memory.md R80), a command runs when it is written (log 12). -/
def State.withFetchWord (s : State) (nbits w : Nat) : State :=
  { s with inputs := .write (s.params.regBase + offsetOf .cmd) (BitVec.ofNat 32 (w % 2 ^ nbits)) :: s.inputs }

end Sys2Proof.Machine
end

