-- ==== Sys2Proof/Safety.lean ====
section
/-! DEFINITION. The terms in which claims about the machine are stated: the invariant of its states, the
checksum law of an `EXTEND` in progress, the count of its micro-steps, and what a recorded error leaves in
`STATUS`. -/
namespace Sys2Proof.Machine

/-- `STATUS` after the error with cause code `code` is recorded (60_exceptions.md R237), written out. -/
def recorded (st : Status) (code : BitVec 4) : Status :=
  { busy := st.busy, done := st.done, err := true, errcode := if st.err then st.errcode else code }

/-- The command leaves `v` in `ACC`. -/
def Leaves (i : Instr) (s : State) (v : Dword) : Prop := ∃ t, exec i s = .next t ∧ t.acc = v

/-- The command needs a unit that is absent (60_exceptions.md R232). -/
def UnitAbsent (p : Config.Params) (i : Instr) : Prop :=
  (i = .crc32cW ∧ p.hw4 = false) ∨ (i = .crc32cD ∧ p.hw8 = false) ∨ (i = .neonD ∧ p.neon = false)

/-- `w` is a command word (30_encoding.md R93): `RSV` is 0, `OPC` is one of the eleven, and `IMM8` is 0 but
for `STEP1`. -/
def IsCommandWord (w : Word) : Prop :=
  w.extractLsb' 16 16 = 0#16 ∧
    w.extractLsb' 0 8 ∈ [0x00#8, 0x01#8, 0x02#8, 0x10#8, 0x11#8, 0x12#8, 0x20#8, 0x21#8, 0x22#8, 0x30#8,
      0x40#8] ∧
    (w.extractLsb' 0 8 = 0x10#8 ∨ w.extractLsb' 8 8 = 0#8)

/-- What `STATUS` reads as (10_state.md R22), as a number: `BUSY`, `DONE`, `ERR` in bits 0 to 2, `ERRCODE` in
bits 7:4. -/
def statusNumber (st : Status) : Nat :=
  st.busy.toNat + 2 * st.done.toNat + 4 * st.err.toNat + 16 * st.errcode.toNat

/-- What `CAP` reads as (10_state.md R23), as a number: `SEL` in bits 1:0, `BATCH_EN` in bit 2. -/
def capNumber (c : Cap) : Nat :=
  (match c.sel with
    | .sw => 0
    | .hw4 => 1
    | .hw8 => 2
    | .neon => 3) + 4 * c.batchEn.toNat

/-- What `FEAT` reads as (10_state.md R32), as a number. -/
def featNumber (p : Config.Params) : Nat :=
  1 + 2 * p.hw4.toNat + 4 * p.hw8.toNat + 8 * p.neon.toNat + 16 * p.batch.toNat

/-- How many bytes the micro-step of the present phase reads at `CUR` (42_alignment_driver.md R192 to R196):
0 where it only leaves its phase. -/
def readSpan (s : State) : Nat :=
  match s.phase with
  | .idle => 0
  | .batch => (s.endNat - s.curNat) / s.params.batchChunk * s.params.batchChunk
  | .align => if s.curNat % 4 = 0 ∨ s.curNat = s.endNat then 0 else 1
  | .g16 => if 16 ≤ s.endNat - s.curNat then 16 else 0
  | .g8 => if 8 ≤ s.endNat - s.curNat then 8 else 0
  | .tail => if s.curNat = s.endNat then 0 else 1
  | .final => 0

/-- The invariant of the machine's states: what the spec says holds between any two steps. -/
structure Inv (s : State) : Prop where
  /-- The parameters are in their ranges (00_scope.md R5, R7). -/
  params_wf : s.params.wf
  /-- `ACC[63:32] = 0` (10_state.md R25). -/
  acc_high : hiHalf s.acc = 0#32
  /-- `PHASE` is IDLE exactly when `BUSY` is 0 (10_state.md R34). -/
  idle_iff : s.phase = .idle ↔ s.status.busy = false
  /-- `DONE` is 0 while an `EXTEND` is in progress (10_state.md R22, 42_alignment_driver.md R191). -/
  not_done : s.status.busy = true → s.status.done = false
  /-- `ERRCODE` is 0 while `ERR` is 0 (10_state.md R22). -/
  code_zero : s.status.err = false → s.status.errcode = 0#4
  /-- `ERRCODE` is one of the codes 1 to 5 while `ERR` is 1 (60_exceptions.md R230). -/
  code_known : s.status.err = true → 1 ≤ s.status.errcode.toNat ∧ s.status.errcode.toNat ≤ 5
  /-- `CAP` names only units that are present (10_state.md R23). -/
  cap_legal : s.cap.sel.present s.params = true ∧ (s.cap.batchEn = true → s.params.batch = true)
  /-- `CAPL` is the `CAP` of the acceptance, and `CAP` cannot change while busy (10_state.md R35, R39). -/
  cap_latched : s.status.busy = true → s.capl = s.cap
  /-- The buffer memory is in canonical form. -/
  mem_wf : Memory.wf s.mem
  /-- Buffer addresses have `P_ADDR_W` bits (20_memory.md R60). -/
  mem_space : ∀ c ∈ s.mem, c.1 < 2 ^ s.params.addrW
  /-- `CUR` and `END` have `P_ADDR_W + 1` bits (10_state.md R30, R31). -/
  positions : s.curNat < 2 ^ (s.params.addrW + 1) ∧ s.endNat < 2 ^ (s.params.addrW + 1)
  /-- `ADDR ≤ CUR ≤ END = ADDR + LEN ≤ 2^P_ADDR_W` during an `EXTEND` (42_alignment_driver.md R187, R190). -/
  bounds : s.status.busy = true →
    s.addr.toNat ≤ s.curNat ∧ s.curNat ≤ s.endNat ∧ s.endNat = s.addr.toNat + s.len.toNat ∧
      s.endNat ≤ 2 ^ s.params.addrW
  /-- BATCH is entered at acceptance only, when `BATCH_EN` and the threshold allow it (R191). -/
  in_batch : s.phase = .batch →
    s.curNat = s.addr.toNat ∧ s.capl.batchEn = true ∧ s.params.batchMin ≤ s.len.toNat
  /-- The ALIGN phase exists only with `ALIGN4` (00_scope.md R8). -/
  in_align : s.phase = .align → s.params.align = .align4
  /-- With `ALIGN4` the word steps start at multiples of 4 (20_memory.md R68). -/
  word_aligned : s.phase = .g16 ∨ s.phase = .g8 → s.params.align = .align4 →
    s.curNat % 4 = 0 ∨ s.curNat = s.endNat
  /-- G16 is left only when fewer than 16 bytes remain (42_alignment_driver.md R199). -/
  in_g8 : s.phase = .g8 → s.remaining < 16
  /-- G8 is left only when fewer than 8 bytes remain (42_alignment_driver.md R201). -/
  in_tail : s.phase = .tail → s.remaining < 8
  /-- FINAL is entered only at the end of the buffer (42_alignment_driver.md R192, R196). -/
  in_final : s.phase = .final → s.curNat = s.endNat
  /-- The touched places lie in the buffer of the `EXTEND` in progress (20_memory.md R71). -/
  touched_in : s.status.busy = true →
    ∀ a ∈ s.touched, s.addr.toNat ≤ a ∧ a < s.addr.toNat + s.len.toNat

/-- The law of the accumulator during an `EXTEND` (42_alignment_driver.md R187): while no byte of its buffer
was stored to since its acceptance, `ACC[31:0] = RawCRC(CRC_IN ^ 0xFFFFFFFF, MemBytes(ADDR, CUR − ADDR))`. -/
def AccumulatorLaw (s : State) : Prop :=
  s.status.busy = true → s.touched = [] →
    ∃ bytes, Memory.bytes s.mem s.addr.toNat (s.curNat - s.addr.toNat) = some bytes ∧
      s.acc32 = rawCRC (complement s.crcIn) bytes

/-- The micro-steps of an `EXTEND` over `len` bytes at `addr` without the batch unit
(42_alignment_driver.md R188). -/
def plainSteps (p : Config.Params) (addr len : Nat) : Nat :=
  match p.align with
  | .align4 =>
    let a := min ((4 - addr % 4) % 4) len
    let r := len - a
    a + r / 16 + r % 16 / 8 + r % 8 + 5
  | .omitted => len / 16 + len % 16 / 8 + len % 8 + 4

/-- The micro-steps of the `EXTEND` that `s` would accept (42_alignment_driver.md R188). -/
def extendSteps (s : State) : Nat :=
  let n := s.len.toNat / s.params.batchChunk * s.params.batchChunk
  if s.cap.batchEn = true ∧ s.params.batchMin ≤ s.len.toNat then
    if n = s.len.toNat then 2 else 1 + plainSteps s.params (s.addr.toNat + n) (s.len.toNat - n)
  else plainSteps s.params s.addr.toNat s.len.toNat

/-- `s` may run its `EXTEND` to the end undisturbed: the engine is idle, nothing is about to happen outside it,
the buffer lies in the address space and holds `bytes`, and no read of it has a side effect. -/
structure Undisturbed (s : State) (bytes : List Byte) : Prop where
  params_wf : s.params.wf
  idle : s.status.busy = false
  alone : s.inputs = []
  in_space : s.addr.toNat + s.len.toNat ≤ 2 ^ s.params.addrW
  holds : Memory.bytes s.mem s.addr.toNat s.len.toNat = some bytes
  no_side_effect : sideEffectIn s.params s.addr.toNat s.len.toNat = false

end Sys2Proof.Machine
end

