-- ==== Sys2Proof/Certificates/Slice0/Obligations.lean ====
section
/-! DEFINITION. The statements about CRC32C_engine for the provers. Each docstring names the rules of spec/ it
comes from. "Idle" is `STATUS.BUSY = 0`, "busy" is `STATUS.BUSY = 1`; a statement about a step has as its
hypothesis what the step's next input is. -/

open Sys2Proof Sys2Proof.Machine

/-! ## Encoding (30_encoding.md) -/

/-- The example encodings of 30_encoding.md R102 decode to their commands (the rest of the eleven too). -/
def Obligations.ExampleWordsDecode : Prop :=
  decodeWord 0x00000000#32 = .ok .nop ∧ decodeWord 0x00000001#32 = .ok .init ∧
  decodeWord 0x00000002#32 = .ok .final ∧ decodeWord 0x00003110#32 = .ok (.step1 0x31#8) ∧
  decodeWord 0x0000FF10#32 = .ok (.step1 0xFF#8) ∧ decodeWord 0x00000011#32 = .ok .step4 ∧
  decodeWord 0x00000012#32 = .ok .swstep ∧ decodeWord 0x00000020#32 = .ok .crc32cW ∧
  decodeWord 0x00000021#32 = .ok .crc32cD ∧ decodeWord 0x00000022#32 = .ok .neonD ∧
  decodeWord 0x00000030#32 = .ok .wstep ∧ decodeWord 0x00000040#32 = .ok .extend

/-- Decoding and encoding agree in both directions (30_encoding.md R91, R93): the words that decode to a
command are exactly the one word that encodes it, for every command and every `IMM8`. -/
def Obligations.DecodeInvertsEncode : Prop :=
  (∀ (w : Word) (i : Instr), decodeWord w = .ok i ↔ w = encode i) ∧
  ∀ i : Instr, i.wf = true ∧ decodeTableWord 32 (encode i).toNat = some i

/-- 30_encoding.md R93: a word is a command exactly when its fields are those of the opcode map. -/
def Obligations.CommandWordsAreTheOpcodeMap : Prop :=
  ∀ w : Word, (∃ i, decodeWord w = .ok i) ↔ IsCommandWord w

/-- 30_encoding.md R94, 60_exceptions.md R231: a word that is no command, written while idle, records ILLEGAL
(code 1) and has no other effect (`DONE` was cleared before it was decoded, R100). -/
def Obligations.IllegalWordOnlyRecordsIllegal : Prop :=
  ∀ (s : State) (w : Word) (rest : List Input),
    s.inputs = .write s.params.regBase w :: rest → s.status.busy = false → ¬ IsCommandWord w →
    step s = .next { s with
      inputs := rest, status := recorded { s.status with done := false } 1#4 }

/-- When the next input writes to `CMD` a word that decodes to a command, the step is `exec` of that command on
the state without that input; and `withFetchWord` places a command so (30_encoding.md R100). The engine has no
program counter to advance (10_state.md R30). -/
def Obligations.StepRunsDecodedCommand : Prop :=
  (∀ (s : State) (w : Word) (i : Instr) (rest : List Input),
    s.inputs = .write s.params.regBase w :: rest → decodeWord w = .ok i →
    step s = exec i { s with inputs := rest }) ∧
  ∀ (s : State) (i : Instr), step (s.withFetchWord 32 (encode i).toNat) = exec i s

/-- The engine's turn (42_alignment_driver.md R184; log 1): with no input left, or with the input `engine`, the
step is a micro-step; an idle engine waits (70_reset_and_hazards.md R262). -/
def Obligations.EngineTakesItsTurn : Prop :=
  ∀ (s : State) (rest : List Input),
    (s.inputs = [] → step s = microStep s) ∧
    (s.inputs = .engine :: rest → step s = microStep { s with inputs := rest }) ∧
    (s.inputs = [] → s.phase = .idle → step s = .next s)

/-! ## The commands -/

/-- `NOP` (42_alignment_driver.md R180). -/
def Obligations.NopOnlySetsDone : Prop :=
  (∀ w : Word, decodeWord w = .ok .nop ↔ w = 0x00000000#32) ∧
  ∀ s : State,
    (s.status.busy = false → exec .nop s = .next { s with status := { s.status with done := true } }) ∧
    (s.status.busy = true → exec .nop s = .next { s with status := recorded s.status 3#4 }) ∧
    (statusNumber s.status = 0 →
      ∃ t, exec .nop s = .next t ∧ t.status.toWord = 0x00000002#32)

/-- `INIT` (42_alignment_driver.md R181). -/
def Obligations.InitComplementsCrcIn : Prop :=
  (∀ w : Word, decodeWord w = .ok .init ↔ w = 0x00000001#32) ∧
  ∀ s : State,
    (s.status.busy = false → exec .init s = .next { s with
      acc := (s.crcIn ^^^ 0xFFFFFFFF#32).setWidth 64, status := { s.status with done := true } }) ∧
    (s.status.busy = true → exec .init s = .next { s with status := recorded s.status 3#4 }) ∧
    (s.status.busy = false → s.crcIn = 0#32 → Leaves .init s 0x00000000FFFFFFFF#64) ∧
    (s.status.busy = false → s.crcIn = 0xFFFFFFFF#32 → Leaves .init s 0#64) ∧
    (s.status.busy = false → s.crcIn = 0xE3069283#32 → Leaves .init s 0x000000001CF96D7C#64)

/-- `FINAL` (42_alignment_driver.md R182). -/
def Obligations.FinalComplementsAcc : Prop :=
  (∀ w : Word, decodeWord w = .ok .final ↔ w = 0x00000002#32) ∧
  ∀ s : State,
    (s.status.busy = false → exec .final s = .next { s with
      result := s.acc.extractLsb' 0 32 ^^^ 0xFFFFFFFF#32, status := { s.status with done := true } }) ∧
    (s.status.busy = true → exec .final s = .next { s with status := recorded s.status 3#4 }) ∧
    (s.status.busy = false → s.acc = 0x000000001CF96D7C#64 →
      ∃ t, exec .final s = .next t ∧ t.result = 0xE3069283#32 ∧ t.acc = s.acc)

/-- `STEP1 #imm8` (40_table_lookup_datapath.md R130, with the byte step of R124). -/
def Obligations.Step1FoldsOneByte : Prop :=
  (∀ (w : Word) (b : Byte), decodeWord w = .ok (.step1 b) ↔ w = 0#16 ++ b ++ 0x10#8) ∧
  (∀ (s : State) (w : Word) (rest : List Input), s.inputs = .write s.params.regBase w :: rest →
    s.status.busy = false → w.extractLsb' 0 8 = 0x10#8 → w.extractLsb' 16 16 ≠ 0#16 →
    step s = .next { s with inputs := rest, status := recorded { s.status with done := false } 1#4 }) ∧
  ∀ (s : State) (b : Byte),
    (s.status.busy = false → exec (.step1 b) s = .next { s with
      acc := (t0 ((s.acc.extractLsb' 0 32 ^^^ b.setWidth 32).setWidth 8) ^^^
        (s.acc.extractLsb' 0 32 >>> 8)).setWidth 64
      status := { s.status with done := true } }) ∧
    (s.status.busy = true → exec (.step1 b) s = .next { s with status := recorded s.status 3#4 }) ∧
    (s.status.busy = false → s.acc = 0#64 →
      Leaves (.step1 0#8) s 0#64 ∧ Leaves (.step1 b) s ((t0 b).setWidth 64)) ∧
    (s.status.busy = false → b = s.acc.extractLsb' 0 8 →
      Leaves (.step1 b) s ((s.acc.extractLsb' 8 24).setWidth 64))

/-- `STEP4` (40_table_lookup_datapath.md R131, with the four-byte fold of R125). -/
def Obligations.Step4FoldsFourBytes : Prop :=
  (∀ w : Word, decodeWord w = .ok .step4 ↔ w = 0x00000011#32) ∧
  (∀ (s : State) (w : Word) (rest : List Input), s.inputs = .write s.params.regBase w :: rest →
    s.status.busy = false → w.extractLsb' 0 8 = 0x11#8 → w.extractLsb' 8 24 ≠ 0#24 →
    step s = .next { s with inputs := rest, status := recorded { s.status with done := false } 1#4 }) ∧
  ∀ s : State,
    (s.status.busy = false → exec .step4 s = .next { s with
      acc := (let c := s.acc.extractLsb' 0 32 ^^^ s.din.extractLsb' 0 32
        t3 (c.extractLsb' 0 8) ^^^ t2 (c.extractLsb' 8 8) ^^^ t1 (c.extractLsb' 16 8) ^^^
          t0 (c.extractLsb' 24 8)).setWidth 64
      status := { s.status with done := true } }) ∧
    (s.status.busy = true → exec .step4 s = .next { s with status := recorded s.status 3#4 }) ∧
    (s.status.busy = false → s.din.extractLsb' 0 32 = s.acc.extractLsb' 0 32 → Leaves .step4 s 0#64) ∧
    (s.status.busy = false → s.acc = 0#64 → s.din = 1#64 → Leaves .step4 s 0x00000000DD45AAB8#64) ∧
    (s.status.busy = false → s.acc = 0#64 → s.din = 0x01000000#64 → Leaves .step4 s 0x00000000F26B8303#64)

/-- `SWSTEP` (41_word_intrinsic_step.md R158): two four-byte folds, always available. -/
def Obligations.SwstepFoldsTwoWords : Prop :=
  (∀ w : Word, decodeWord w = .ok .swstep ↔ w = 0x00000012#32) ∧
  ∀ s : State,
    (s.status.busy = false → exec .swstep s = .next { s with
      acc := (s4 (s4 (s.acc.extractLsb' 0 32) (s.din.extractLsb' 0 32)) (s.din.extractLsb' 32 32)).setWidth 64
      status := { s.status with done := true } }) ∧
    (s.status.busy = true → exec .swstep s = .next { s with status := recorded s.status 3#4 }) ∧
    (s.status.busy = false → s.acc = 0x00000000FFFFFFFF#64 → s.din = 0xFFFFFFFFFFFFFFFF#64 →
      Leaves .swstep s 0x00000000B798B438#64)

/-- `CRC32C.W` (41_word_intrinsic_step.md R155, with `CRC32C_W = S4` of R150). -/
def Obligations.Crc32cWordInstruction : Prop :=
  (∀ w : Word, decodeWord w = .ok .crc32cW ↔ w = 0x00000020#32) ∧
  ∀ s : State,
    (s.status.busy = false → s.params.hw4 = true → exec .crc32cW s = .next { s with
      acc := (s4 (s.acc.extractLsb' 0 32) (s.din.extractLsb' 0 32)).setWidth 64
      status := { s.status with done := true } }) ∧
    (s.status.busy = false → s.params.hw4 = false → exec .crc32cW s = .next { s with
      status := recorded { s.status with done := false } 2#4 }) ∧
    (s.status.busy = true → exec .crc32cW s = .next { s with status := recorded s.status 3#4 }) ∧
    (s.status.busy = false → s.params.hw4 = true → s.din.extractLsb' 0 32 = s.acc.extractLsb' 0 32 →
      Leaves .crc32cW s 0#64) ∧
    (s.status.busy = false → s.params.hw4 = true → ∀ v, Leaves .crc32cW s v ↔ Leaves .step4 s v)

/-- `CRC32C.D` (41_word_intrinsic_step.md R156, with `CRC32C_D(s, d) = S4(S4(s, d[31:0]), d[63:32])` of
R151). -/
def Obligations.Crc32cDoubleInstruction : Prop :=
  (∀ w : Word, decodeWord w = .ok .crc32cD ↔ w = 0x00000021#32) ∧
  ∀ s : State,
    (s.status.busy = false → s.params.hw8 = true → exec .crc32cD s = .next { s with
      acc := (s4 (s4 (s.acc.extractLsb' 0 32) (s.din.extractLsb' 0 32)) (s.din.extractLsb' 32 32)).setWidth 64
      status := { s.status with done := true } }) ∧
    (s.status.busy = false → s.params.hw8 = false → exec .crc32cD s = .next { s with
      status := recorded { s.status with done := false } 2#4 }) ∧
    (s.status.busy = true → exec .crc32cD s = .next { s with status := recorded s.status 3#4 }) ∧
    (s.status.busy = false → s.params.hw8 = true → s.din = 0#64 → s.acc = 0#64 → Leaves .crc32cD s 0#64) ∧
    (s.status.busy = false → s.params.hw8 = true → ∃ t : State, exec .step4 s = .next t ∧
      ∀ v, Leaves .crc32cD s v ↔ Leaves .step4 { t with din := (s.din.extractLsb' 32 32).setWidth 64 } v)

/-- `NEON.D` (41_word_intrinsic_step.md R157, R152): the function of `CRC32C.D` on its own unit. -/
def Obligations.NeonDoubleInstruction : Prop :=
  (∀ w : Word, decodeWord w = .ok .neonD ↔ w = 0x00000022#32) ∧
  ∀ s : State,
    (s.status.busy = false → s.params.neon = true → exec .neonD s = .next { s with
      acc := (s4 (s4 (s.acc.extractLsb' 0 32) (s.din.extractLsb' 0 32)) (s.din.extractLsb' 32 32)).setWidth 64
      status := { s.status with done := true } }) ∧
    (s.status.busy = false → s.params.neon = false → exec .neonD s = .next { s with
      status := recorded { s.status with done := false } 2#4 }) ∧
    (s.status.busy = true → exec .neonD s = .next { s with status := recorded s.status 3#4 }) ∧
    (s.status.busy = false → s.params.neon = true → s.din = 0#64 → s.acc = 0#64 → Leaves .neonD s 0#64) ∧
    (s.status.busy = false → s.params.neon = true → s.params.hw8 = true →
      ∀ v, Leaves .neonD s v ↔ Leaves .crc32cD s v)

/-- `WSTEP` (41_word_intrinsic_step.md R159): the word step that `CAP.SEL` selects; it never raises UNAVAIL. -/
def Obligations.WstepRunsTheSelectedStep : Prop :=
  (∀ w : Word, decodeWord w = .ok .wstep ↔ w = 0x00000030#32) ∧
  ∀ s : State,
    (s.status.busy = false → exec .wstep s = .next { s with
      acc := (match s.cap.sel with
        | .sw => s4 (s4 (s.acc.extractLsb' 0 32) (s.din.extractLsb' 0 32)) (s.din.extractLsb' 32 32)
        | .hw4 => crc32cWFn (crc32cWFn (s.acc.extractLsb' 0 32) (s.din.extractLsb' 0 32))
            (s.din.extractLsb' 32 32)
        | .hw8 => crc32cDFn (s.acc.extractLsb' 0 32) s.din
        | .neon => crc32cDFn (s.acc.extractLsb' 0 32) s.din).setWidth 64
      status := { s.status with done := true } }) ∧
    (s.status.busy = true → exec .wstep s = .next { s with status := recorded s.status 3#4 })

/-- The acceptance check of `EXTEND` (42_alignment_driver.md R190, 60_exceptions.md R234): RANGE, nothing else
changes. -/
def Obligations.ExtendPastTheTopIsRejected : Prop :=
  ∀ s : State, s.status.busy = false → 2 ^ s.params.addrW < s.addr.toNat + s.len.toNat →
    exec .extend s = .next { s with status := recorded { s.status with done := false } 4#4 }

/-- The acceptance of `EXTEND` (42_alignment_driver.md R191), with what a busy engine answers (R39). Nothing is
claimed of `touched`, the model's own field (log 6). -/
def Obligations.ExtendIsAccepted : Prop :=
  (∀ w : Word, decodeWord w = .ok .extend ↔ w = 0x00000040#32) ∧
  ∀ s : State,
    (s.status.busy = true → exec .extend s = .next { s with status := recorded s.status 3#4 }) ∧
    (s.params.wf → s.status.busy = false → s.addr.toNat + s.len.toNat ≤ 2 ^ s.params.addrW →
      ∃ own, exec .extend s = .next { s with
        acc := (s.crcIn ^^^ 0xFFFFFFFF#32).setWidth 64
        cur := BitVec.ofNat 65 s.addr.toNat
        endPos := BitVec.ofNat 65 (s.addr.toNat + s.len.toNat)
        capl := s.cap
        status := { s.status with busy := true, done := false }
        phase := if s.cap.batchEn = true ∧ s.params.batchMin ≤ s.len.toNat then .batch
          else if s.params.align = .align4 then .align else .g16
        touched := own })

/-- The frame of the ten atomic commands (30_encoding.md R92, R101; 10_state.md R24, R26 to R29): every field
but `ACC`, `RESULT` and `STATUS` is unchanged, `RESULT` changes by `FINAL` only, `ACC` by neither `NOP` nor
`FINAL`, `BUSY` never; `ERR` and `ERRCODE` only when the command is rejected. -/
def Obligations.AtomicCommandFrame : Prop :=
  ∀ (i : Instr) (s t : State), i ≠ .extend → exec i s = .next t →
    (∀ a, Memory.lookup t.mem a = Memory.lookup s.mem a) ∧
    t = { s with acc := t.acc, result := t.result, status := t.status } ∧
    (i ≠ .final → t.result = s.result) ∧
    (i = .nop ∨ i = .final → t.acc = s.acc) ∧
    t.status.busy = s.status.busy ∧
    (s.status.busy = false → ¬ UnitAbsent s.params i →
      t.status.err = s.status.err ∧ t.status.errcode = s.status.errcode ∧ t.status.done = true) ∧
    (s.status.busy = true ∨ UnitAbsent s.params i → t.acc = s.acc ∧ t.result = s.result)

/-- The frame of the command `EXTEND` (42_alignment_driver.md R183, R186): no operand register, no `CAP`, no
`RESULT`, no byte of memory and nothing outside the engine changes. -/
def Obligations.ExtendCommandFrame : Prop :=
  ∀ s t : State, exec .extend s = .next t →
    (∀ a, Memory.lookup t.mem a = Memory.lookup s.mem a) ∧
    t = { s with
      acc := t.acc, cur := t.cur, endPos := t.endPos, capl := t.capl, phase := t.phase, status := t.status,
      touched := t.touched }

/-! ## Errors (60_exceptions.md) -/

/-- 60_exceptions.md R237: `ERRCODE` holds the first error since `ERR` was last clear, and writing a value with
bit 2 set to `STATUS` clears both, busy or not (10_state.md R22). -/
def Obligations.FirstErrorIsKeptUntilCleared : Prop :=
  (∀ (s : State) (e : EngineError), raiseError e s = { s with
    status := { s.status with err := true, errcode := if s.status.err then s.status.errcode else e.code } }) ∧
  ∀ (s : State) (v : Word) (rest : List Input), s.inputs = .write (s.params.regBase + 0x04) v :: rest →
    step s = .next { s with
      inputs := rest
      status := if v.getLsbD 2 then { s.status with err := false, errcode := 0#4 } else s.status }

/-- 60_exceptions.md R232: a command whose unit is absent records UNAVAIL, and no other command can: whatever
else is written while idle leaves a clear `ERR` clear or records another code. -/
def Obligations.UnavailExactlyForAbsentUnits : Prop :=
  (∀ (s : State) (i : Instr), s.status.busy = false → UnitAbsent s.params i →
    exec i s = .next { s with status := recorded { s.status with done := false } 2#4 }) ∧
  ∀ (s t : State) (i : Instr), s.status.busy = false → s.status.err = false → exec i s = .next t →
    ¬ UnitAbsent s.params i → t.status.err = true → t.status.errcode = 4#4 ∧ i = .extend

/-- 60_exceptions.md R236: one write to `CMD` reports at most one error, the first that applies of BUSY,
ILLEGAL, UNAVAIL, RANGE; where none applies, `ERR` and `ERRCODE` stay. -/
def Obligations.CmdWriteErrorPriority : Prop :=
  ∀ (s : State) (w : Word) (rest : List Input), s.inputs = .write s.params.regBase w :: rest →
    (s.status.busy = true → step s = .next { s with inputs := rest, status := recorded s.status 3#4 }) ∧
    (s.status.busy = false → ¬ IsCommandWord w →
      step s = .next { s with inputs := rest, status := recorded { s.status with done := false } 1#4 }) ∧
    (∀ i, s.status.busy = false → decodeWord w = .ok i → UnitAbsent s.params i →
      step s = .next { s with inputs := rest, status := recorded { s.status with done := false } 2#4 }) ∧
    (s.status.busy = false → decodeWord w = .ok .extend →
      2 ^ s.params.addrW < s.addr.toNat + s.len.toNat →
      step s = .next { s with inputs := rest, status := recorded { s.status with done := false } 4#4 }) ∧
    (∀ i, s.status.busy = false → decodeWord w = .ok i → ¬ UnitAbsent s.params i →
      ¬ (i = .extend ∧ 2 ^ s.params.addrW < s.addr.toNat + s.len.toNat) →
      ∃ t, step s = .next t ∧ t.status.err = s.status.err ∧ t.status.errcode = s.status.errcode)

/-- 60_exceptions.md R235, R238, 42_alignment_driver.md R198: where one of the bytes that a micro-step reads is
answered by an error response, the step writes none of its results and aborts. `ACC` and `CUR` are free draws
(93_implementation_defined.md U5; log 10), `RESULT` is kept. That an unlisted place is one that answers so is
the model's choice (log 3). -/
def Obligations.FailedReadAborts : Prop :=
  ∀ s : State, Inv s → s.inputs = [] → Memory.bytes s.mem s.curNat (readSpan s) = none →
    sideEffectIn s.params s.curNat (readSpan s) = false →
    step s = .next { s with
      status := { recorded s.status 5#4 with busy := false, done := false }
      phase := .idle
      acc := (Config.freeAcc s.draws).setWidth 64
      cur := fitPosition s.params.addrW (Config.freeCur s.draws).toNat
      draws := s.draws + 1 }

/-- 20_memory.md R72, 93_implementation_defined.md U4: a micro-step that would read a place with side effects is
refused (log 4), where every place it reads before that one holds a byte. The place itself, and those after it,
may be unlisted: the refusal goes before the error (log 11). -/
def Obligations.ReadWithSideEffectIsRefused : Prop :=
  ∀ (s : State) (k : Nat) (bytes : List Byte), Inv s → s.inputs = [] → k < readSpan s →
    Memory.bytes s.mem s.curNat k = some bytes → sideEffectAt s.params (s.curNat + k) = true →
    step s = .refused .sideEffect

/-! ## The register window (10_state.md) -/

/-- 10_state.md R38: what a host write to a read-write register sets while idle; nothing else changes. (`CAP`:
the next statement.) -/
def Obligations.HostWritesWhileIdle : Prop :=
  ∀ (s : State) (v : Word) (rest : List Input), s.status.busy = false →
    (s.inputs = .write (s.params.regBase + 0x0C) v :: rest →
      step s = .next { s with inputs := rest, crcIn := v }) ∧
    (s.inputs = .write (s.params.regBase + 0x10) v :: rest →
      step s = .next { s with inputs := rest, addr := s.addr.extractLsb' 32 32 ++ v }) ∧
    (s.inputs = .write (s.params.regBase + 0x14) v :: rest →
      step s = .next { s with inputs := rest, addr := v ++ s.addr.extractLsb' 0 32 }) ∧
    (s.inputs = .write (s.params.regBase + 0x18) v :: rest →
      step s = .next { s with inputs := rest, len := s.len.extractLsb' 32 32 ++ v }) ∧
    (s.inputs = .write (s.params.regBase + 0x1C) v :: rest →
      step s = .next { s with inputs := rest, len := v ++ s.len.extractLsb' 0 32 }) ∧
    (s.inputs = .write (s.params.regBase + 0x20) v :: rest →
      step s = .next { s with inputs := rest, din := s.din.extractLsb' 32 32 ++ v }) ∧
    (s.inputs = .write (s.params.regBase + 0x24) v :: rest →
      step s = .next { s with inputs := rest, din := v ++ s.din.extractLsb' 0 32 }) ∧
    (s.inputs = .write (s.params.regBase + 0x28) v :: rest →
      step s = .next { s with inputs := rest, acc := v.setWidth 64 }) ∧
    (s.inputs = .write (s.params.regBase + 0x08) v :: rest →
      step s = .next { s with inputs := rest, cap := Cap.ofWord s.params v })

/-- 10_state.md R23: `CAP.SEL` is write-any-read-legal, `BATCH_EN` is 0 without the batch unit; no error. -/
def Obligations.CapTakesOnlyPresentUnits : Prop :=
  ∀ (s : State) (v : Word) (rest : List Input),
    (s.status.busy = false → s.inputs = .write (s.params.regBase + 0x08) v :: rest →
      step s = .next { s with
        inputs := rest
        cap := {
          sel := if v.toNat % 4 = 1 ∧ s.params.hw4 = true then .hw4
            else if v.toNat % 4 = 2 ∧ s.params.hw8 = true then .hw8
            else if v.toNat % 4 = 3 ∧ s.params.neon = true then .neon
            else .sw
          batchEn := s.params.batch && v.getLsbD 2 } }) ∧
    (s.inputs = .read (s.params.regBase + 0x08) :: rest →
      step s = .next { s with inputs := rest, reads := BitVec.ofNat 32 (capNumber s.cap) :: s.reads })

/-- 10_state.md R39, 60_exceptions.md R233: while busy, a write to `CMD` or to a read-write register other than
`STATUS` is discarded and records BUSY (code 3); a write to `STATUS` is accepted; a write to a read-only or
reserved offset is ignored without error. The `EXTEND` in progress is unaffected. That every offset of 0x40 or
above counts as reserved, however far above, is the model's choice (log 9): R33 says it only of those that the
platform decodes. -/
def Obligations.WritesWhileBusy : Prop :=
  ∀ (s : State) (off : Nat) (v : Word) (rest : List Input), s.status.busy = true →
    s.inputs = .write (s.params.regBase + off) v :: rest →
    (off ∈ [0x00, 0x08, 0x0C, 0x10, 0x14, 0x18, 0x1C, 0x20, 0x24, 0x28] →
      step s = .next { s with inputs := rest, status := recorded s.status 3#4 }) ∧
    (off = 0x04 → step s = .next { s with
      inputs := rest
      status := if v.getLsbD 2 then { s.status with err := false, errcode := 0#4 } else s.status }) ∧
    (off ∈ [0x2C, 0x30, 0x34, 0x38, 0x3C] ∨ (0x40 ≤ off ∧ off % 4 = 0) →
      step s = .next { s with inputs := rest })

/-- 10_state.md R20, R33: a write to a read-only register, or at an offset of 0x40 or above, is ignored without
error while idle too (92_eei_decisions.md D37). That every offset of 0x40 or above counts as reserved, however far
above, is the model's choice (log 9). -/
def Obligations.ReadOnlyAndReservedWritesAreIgnored : Prop :=
  ∀ (s : State) (off : Nat) (v : Word) (rest : List Input),
    s.inputs = .write (s.params.regBase + off) v :: rest →
    off ∈ [0x2C, 0x30, 0x34, 0x38, 0x3C] ∨ (0x40 ≤ off ∧ off % 4 = 0) →
    step s = .next { s with inputs := rest }

/-- 10_state.md R20 to R33, R40: what the registers read as whether or not the engine is busy, all but `ACC_LO`,
`CUR_LO` and `CUR_HI`; offsets of 0x40 and above read 0. That they do so however far above is the model's choice
(log 9), and so is the list of reads (log 8). -/
def Obligations.StableRegistersRead : Prop :=
  ∀ (s : State) (off : Nat) (v : Word) (rest : List Input),
    s.inputs = .read (s.params.regBase + off) :: rest →
    ((off, v) ∈ [(0x00, 0#32), (0x04, BitVec.ofNat 32 (statusNumber s.status)),
        (0x08, BitVec.ofNat 32 (capNumber s.cap)), (0x0C, s.crcIn),
        (0x10, BitVec.ofNat 32 s.addr.toNat), (0x14, BitVec.ofNat 32 (s.addr.toNat / 2 ^ 32)),
        (0x18, BitVec.ofNat 32 s.len.toNat), (0x1C, BitVec.ofNat 32 (s.len.toNat / 2 ^ 32)),
        (0x20, BitVec.ofNat 32 s.din.toNat), (0x24, BitVec.ofNat 32 (s.din.toNat / 2 ^ 32)),
        (0x2C, 0#32), (0x30, s.result), (0x3C, BitVec.ofNat 32 (featNumber s.params))] ∨
      (0x40 ≤ off ∧ off % 4 = 0 ∧ v = 0#32)) →
    step s = .next { s with inputs := rest, reads := v :: s.reads }

/-- 10_state.md R25, R30, R40: `ACC_LO`, `CUR_LO` and `CUR_HI` read their values while idle; while busy each read
is a fresh draw (93_implementation_defined.md U1; log 7). -/
def Obligations.AccAndCurReads : Prop :=
  ∀ (s : State) (off : Nat) (v : Word) (rest : List Input),
    s.inputs = .read (s.params.regBase + off) :: rest →
    (s.status.busy = false →
      (off, v) ∈ [(0x28, BitVec.ofNat 32 s.acc.toNat), (0x34, BitVec.ofNat 32 s.cur.toNat),
        (0x38, BitVec.ofNat 32 (s.cur.toNat / 2 ^ 32))] →
      step s = .next { s with inputs := rest, reads := v :: s.reads }) ∧
    (s.status.busy = true → off ∈ [0x28, 0x34, 0x38] →
      step s = .next { s with
        inputs := rest, reads := Config.freeRead s.draws :: s.reads, draws := s.draws + 1 })

/-- 20_memory.md R69, 93_implementation_defined.md U2: a host access that is not 32 bits wide at an offset that
is a multiple of 4 is refused. R69 and U2 speak of accesses to the register window; that the model refuses such an
access wherever it lands is its choice (log 9). -/
def Obligations.OtherHostAccessesAreRefused : Prop :=
  ∀ (s : State) (rest : List Input),
    (∀ a n, n ≠ 4 → s.inputs = .otherAccess a n :: rest → step s = .refused .hostAccessShape) ∧
    (∀ off v, off % 4 ≠ 0 → s.inputs = .write (s.params.regBase + off) v :: rest →
      step s = .refused .hostAccessShape) ∧
    (∀ off, off % 4 ≠ 0 → s.inputs = .read (s.params.regBase + off) :: rest →
      step s = .refused .hostAccessShape)

/-! ## The buffer memory (20_memory.md) -/

/-- 20_memory.md R62, R66: a read of n bytes is the little-endian assembly of them, and agrees with the 1-byte
reads of the same places. -/
def Obligations.ReadsAreLittleEndian : Prop :=
  ∀ (s : State) (a n : Nat) (bytes : List Byte), s.memBytes a n = .data bytes →
    bytes.length = n ∧
    (∃ v, s.memRead a n = .data v ∧
      v.toNat = ((List.range n).map (fun i => (bytes.getD i 0#8).toNat <<< (8 * i))).sum) ∧
    ∀ i, i < n → s.memBytes (a + i) 1 = .data [bytes.getD i 0#8]

/-- A byte stored into the buffer memory reads back, every other place reads as before, and the memory keeps its
canonical form (20_memory.md R60, R77). While idle, and busy where the place lies outside the buffer of the
`EXTEND` in progress, nothing else changes (a store inside it: the next statement). -/
def Obligations.StoredByteReadsBack : Prop :=
  ∀ (s : State) (a : Nat) (b : Byte) (rest : List Input), s.inputs = .store a b :: rest →
    a < 2 ^ s.params.addrW → sideEffectAt s.params a = false →
    ∃ t, step s = .next t ∧ Memory.lookup t.mem a = some b ∧
      (∀ x, x ≠ a → Memory.lookup t.mem x = Memory.lookup s.mem x) ∧
      (Memory.wf s.mem → Memory.wf t.mem) ∧
      (s.status.busy = false ∨ a < s.addr.toNat ∨ s.addr.toNat + s.len.toNat ≤ a →
        t = { s with inputs := rest, mem := t.mem })

/-- 20_memory.md R71, 93_implementation_defined.md U3: a byte of the buffer stored to while the `EXTEND` reading
it is in progress reads as a free draw, and where it was consumed already the accumulator becomes a free draw.
How the draws are kept is the model's choice (log 6). -/
def Obligations.ByteStoredWhileBusyIsDrawn : Prop :=
  (∀ (s : State) (a : Nat) (b : Byte) (rest : List Input), s.inputs = .store a b :: rest →
    a < 2 ^ s.params.addrW → sideEffectAt s.params a = false → s.status.busy = true →
    s.addr.toNat ≤ a → a < s.addr.toNat + s.len.toNat →
    ∃ t, step s = .next t ∧ a ∈ t.touched ∧ (∀ x ∈ s.touched, x ∈ t.touched) ∧
      t = { s with
        inputs := rest, mem := t.mem, touched := t.touched, draws := s.draws + 1
        acc := if a < s.curNat then (Config.freeAcc s.draws).setWidth 64 else s.acc }) ∧
  ∀ (s : State) (a : Nat) (b : Byte), a ∈ s.touched → Memory.lookup s.mem a = some b →
    sideEffectAt s.params a = false → s.memBytes a 1 = .data [Config.freeByte s.draws a]

/-- 20_memory.md R61: no step of the engine, no host access to the window and no reset writes the buffer memory;
only a store does. And no step changes the parameters (10_state.md R42). -/
def Obligations.OnlyStoresWriteTheBuffer : Prop :=
  ∀ s t : State, step s = .next t →
    t.params = s.params ∧
    ((∀ a b, s.inputs.head? ≠ some (.store a b)) →
      ∀ a, Memory.lookup t.mem a = Memory.lookup s.mem a)

/-! ## The alignment driver (42_alignment_driver.md) -/

/-- The micro-step of phase ALIGN (42_alignment_driver.md R193), with the bounds of `CUR` and `END` that R187 gives
(`EveryStepKeepsTheInvariant`). -/
def Obligations.AlignMicroStep : Prop :=
  ∀ s : State, s.inputs = [] → s.phase = .align →
    s.params.wf → s.curNat ≤ s.endNat → s.endNat ≤ 2 ^ s.params.addrW →
    (s.curNat % 4 = 0 ∨ s.curNat = s.endNat → step s = .next { s with phase := .g16 }) ∧
    (∀ b : Byte, ¬ (s.curNat % 4 = 0 ∨ s.curNat = s.endNat) → s.memBytes s.curNat 1 = .data [b] →
      step s = .next { s with
        acc := (s1 (s.acc.extractLsb' 0 32) b).setWidth 64
        cur := BitVec.ofNat 65 (s.curNat + 1) })

/-- The micro-step of phase TAIL (42_alignment_driver.md R196), with the bounds of `CUR` and `END` that R187 gives
(`EveryStepKeepsTheInvariant`). -/
def Obligations.TailMicroStep : Prop :=
  ∀ s : State, s.inputs = [] → s.phase = .tail →
    s.params.wf → s.curNat ≤ s.endNat → s.endNat ≤ 2 ^ s.params.addrW →
    (s.curNat = s.endNat → step s = .next { s with phase := .final }) ∧
    (∀ b : Byte, s.curNat ≠ s.endNat → s.memBytes s.curNat 1 = .data [b] →
      step s = .next { s with
        acc := (s1 (s.acc.extractLsb' 0 32) b).setWidth 64
        cur := BitVec.ofNat 65 (s.curNat + 1) })

/-- The micro-step of phase BATCH (42_alignment_driver.md R192, with `BatchCRC = RawCRC` of
41_word_intrinsic_step.md R162). -/
def Obligations.BatchMicroStep : Prop :=
  ∀ (s : State) (n : Nat) (bytes : List Byte), s.inputs = [] → s.phase = .batch →
    s.params.wf → s.curNat ≤ s.endNat → s.endNat ≤ 2 ^ s.params.addrW →
    n = (s.endNat - s.curNat) / s.params.batchChunk * s.params.batchChunk →
    s.memBytes s.curNat n = .data bytes →
    step s = .next { s with
      acc := (rawCRC (s.acc.extractLsb' 0 32) bytes).setWidth 64
      cur := BitVec.ofNat 65 (s.curNat + n)
      phase := if s.curNat + n = s.endNat then .final
        else if s.params.align = .align4 then .align else .g16 }

/-- The micro-steps of phases G16 and G8 (42_alignment_driver.md R194, R195; 41_word_intrinsic_step.md R153,
R160): the bytes they consume are folded as the byte steps would, whatever `CAPL.SEL` is. -/
def Obligations.WordMicroStepsFoldTheirBytes : Prop :=
  ∀ (s : State) (bytes : List Byte), s.inputs = [] → s.params.wf →
    s.curNat ≤ s.endNat → s.endNat ≤ 2 ^ s.params.addrW →
    (s.phase = .g16 → s.endNat - s.curNat < 16 → step s = .next { s with phase := .g8 }) ∧
    (s.phase = .g8 → s.endNat - s.curNat < 8 → step s = .next { s with phase := .tail }) ∧
    (s.phase = .g16 → 16 ≤ s.endNat - s.curNat → s.memBytes s.curNat 16 = .data bytes →
      step s = .next { s with
        acc := (rawCRC (s.acc.extractLsb' 0 32) bytes).setWidth 64
        cur := BitVec.ofNat 65 (s.curNat + 16) }) ∧
    (s.phase = .g8 → 8 ≤ s.endNat - s.curNat → s.memBytes s.curNat 8 = .data bytes →
      step s = .next { s with
        acc := (rawCRC (s.acc.extractLsb' 0 32) bytes).setWidth 64
        cur := BitVec.ofNat 65 (s.curNat + 8) })

/-- The micro-step of phase FINAL (42_alignment_driver.md R197). -/
def Obligations.FinalMicroStep : Prop :=
  ∀ s : State, s.inputs = [] → s.phase = .final →
    step s = .next { s with
      result := s.acc.extractLsb' 0 32 ^^^ 0xFFFFFFFF#32
      status := { s.status with busy := false, done := true }
      phase := .idle }

/-- The phase graph (42_alignment_driver.md R185): a step changes the phase only along its edges, or to IDLE by
an abort or a reset, which leave `DONE = 0`. -/
def Obligations.PhaseGraph : Prop :=
  ∀ s t : State, Inv s → step s = .next t → t.phase ≠ s.phase →
    (s.phase, t.phase) ∈ [(.idle, .batch), (.batch, .final), (.g16, .g8), (.g8, .tail), (.tail, .final),
      (.align, .g16)] ∨
    (s.phase, t.phase) ∈ [(.idle, .align), (.batch, .align)] ∧ s.params.align = .align4 ∨
    (s.phase, t.phase) ∈ [(.idle, .g16), (.batch, .g16)] ∧ s.params.align = .omitted ∨
    s.phase = .final ∧ t.phase = .idle ∧ t.status.done = true ∨
    t.phase = .idle ∧ t.status.done = false

/-- 10_state.md R30: the cursor never decreases while an `EXTEND` is in progress, and `END` does not change. -/
def Obligations.CursorNeverDecreases : Prop :=
  ∀ s t : State, Inv s → step s = .next t → s.status.busy = true → t.status.busy = true →
    s.curNat ≤ t.curNat ∧ t.curNat ≤ t.endNat ∧ t.endPos = s.endPos

/-- 10_state.md R37, 60_exceptions.md R243: `BUSY` is cleared only by the final micro-step, by an abort or by a
reset. -/
def Obligations.WhatEndsAnExtend : Prop :=
  ∀ s t : State, step s = .next t → s.status.busy = true → t.status.busy = false →
    (s.phase = .final ∧ t.status.done = true ∧ t.result = s.acc32 ^^^ 0xFFFFFFFF#32) ∨
    (t.status.err = true ∧ t.status.done = false ∧ t.result = s.result ∧
      (s.status.err = false → t.status.errcode = 5#4)) ∨
    s.inputs.head? = some .reset

/-- 10_state.md R29: `RESULT` is written only by `FINAL` and by the final micro-step of `EXTEND`, in both cases as
`u32(ACC) ^ 0xFFFFFFFF` (a reset puts it to 0, R41). -/
def Obligations.WhatWritesResult : Prop :=
  ∀ s t : State, step s = .next t → t.result ≠ s.result →
    (t.result = s.acc.extractLsb' 0 32 ^^^ 0xFFFFFFFF#32 ∧
      (s.phase = .final ∨
        s.inputs.head? = some (.write s.params.regBase (encode .final)) ∧ s.status.busy = false)) ∨
    (s.inputs.head? = some .reset ∧ t.result = 0#32)

/-- 10_state.md R35, R39, R40, 42_alignment_driver.md R186, 70_reset_and_hazards.md R266: while busy, no step but
a reset changes an operand register, `CAP` or `CAPL`, and `RESULT` keeps its value until the final micro-step. -/
def Obligations.OperandsAreStableWhileBusy : Prop :=
  ∀ s t : State, step s = .next t → s.status.busy = true → s.inputs.head? ≠ some .reset →
    t.crcIn = s.crcIn ∧ t.addr = s.addr ∧ t.len = s.len ∧ t.din = s.din ∧ t.cap = s.cap ∧
    t.capl = s.capl ∧ t.endPos = s.endPos ∧ (s.phase ≠ .final → t.result = s.result)

/-! ## Invariants -/

/-- Every step keeps the invariant `Inv` (10_state.md R22, R23, R25, R34, R35; 20_memory.md R68;
42_alignment_driver.md R187, R199 to R201), from every state that has it, whatever the input. -/
def Obligations.EveryStepKeepsTheInvariant : Prop :=
  ∀ s t : State, Inv s → step s = .next t → Inv t

/-- The state after reset has the invariant, for all parameters in their ranges, and so has `State.reset`. -/
def Obligations.ResetHasTheInvariant : Prop :=
  (∀ p : Config.Params, p.wf → Inv (State.resetOf p)) ∧ Inv State.reset

/-- 42_alignment_driver.md R187: every step keeps the law of the accumulator of an `EXTEND` in progress,
whatever the input. -/
def Obligations.EveryStepKeepsTheAccumulatorLaw : Prop :=
  ∀ s t : State, Inv s → AccumulatorLaw s → step s = .next t → AccumulatorLaw t

/-- 10_state.md R41: the reset values. -/
def Obligations.ResetValues : Prop :=
  ∀ p : Config.Params,
    let s := State.resetOf p
    s.status.toWord = 0#32 ∧ s.cap.toWord = 0#32 ∧ s.crcIn = 0 ∧ s.addr = 0 ∧ s.len = 0 ∧ s.din = 0 ∧
    s.acc = 0 ∧ s.result = 0 ∧ s.cur = 0 ∧ s.endPos = 0 ∧ s.phase = .idle ∧ s.capl = s.cap ∧
    regValue .feat s = BitVec.ofNat 32 (featNumber p)

/-- 70_reset_and_hazards.md R260, R261: asserting reset puts every piece of the engine's state in its reset value
at any time, an `EXTEND` in progress is abandoned and no error is recorded. The buffer memory is the host's
(10_state.md R42) and keeps its bytes. -/
def Obligations.ResetAtAnyTime : Prop :=
  ∀ (s : State) (rest : List Input), s.inputs = .reset :: rest →
    step s = .next { s with
      inputs := rest
      status := { busy := false, done := false, err := false, errcode := 0#4 }
      cap := { sel := .sw, batchEn := false }
      crcIn := 0, addr := 0, len := 0, din := 0, acc := 0, result := 0, cur := 0, endPos := 0
      phase := .idle
      capl := { sel := .sw, batchEn := false }
      touched := [] }

/-! ## The checksum -/

/-- 40_table_lookup_datapath.md R120, R133: `POLY_R` is the bit reversal of 0x1EDC6F41, and the tables have the
check values. -/
def Obligations.TableCheckValues : Prop :=
  (∀ i : Fin 32, polyR.getLsbD i = (0x1EDC6F41#32).getLsbD (31 - i)) ∧ polyR = 0x82F63B78#32 ∧
  [t0 0#8, t1 0#8, t2 0#8, t3 0#8] = [0#32, 0#32, 0#32, 0#32] ∧
  [t0 1#8, t1 1#8, t2 1#8, t3 1#8] = [0xF26B8303#32, 0x13A29877#32, 0xA541927E#32, 0xDD45AAB8#32] ∧
  t0 0x80#8 = 0x82F63B78#32 ∧
  [t0 0xFF#8, t1 0xFF#8, t2 0xFF#8, t3 0xFF#8] =
    [0xAD7D5351#32, 0xA3E32483#32, 0x91052BA8#32, 0x2803E842#32]

/-- 40_table_lookup_datapath.md R127: the four-byte fold retires four bytes. -/
def Obligations.FourByteFoldIsFourByteSteps : Prop :=
  ∀ s w : Word, s4 s w =
    rawCRC s [w.extractLsb' 0 8, w.extractLsb' 8 8, w.extractLsb' 16 8, w.extractLsb' 24 8]

/-- 41_word_intrinsic_step.md R151, R153: every word step folds its 8 bytes as the byte steps would, whatever the
selection, and so does `WSTEP` on `DIN`. -/
def Obligations.EveryWordStepIsEightByteSteps : Prop :=
  ∀ (s : State) (sel : Sel), wordStepReg sel s =
    rawCRC (s.acc.extractLsb' 0 32)
      [s.din.extractLsb' 0 8, s.din.extractLsb' 8 8, s.din.extractLsb' 16 8, s.din.extractLsb' 24 8,
       s.din.extractLsb' 32 8, s.din.extractLsb' 40 8, s.din.extractLsb' 48 8, s.din.extractLsb' 56 8]

/-- 40_table_lookup_datapath.md R128, 42_alignment_driver.md R206, R207: the raw checksum composes, the empty
input is the identity, and an extension of an extension is the extension over the concatenation. -/
def Obligations.ChecksumLaws : Prop :=
  (∀ (s : Word) (a b : List Byte), rawCRC s (a ++ b) = rawCRC (rawCRC s a) b) ∧
  (∀ c : Word, extendCRC c [] = c) ∧
  ∀ (c : Word) (a b : List Byte), extendCRC (extendCRC c a) b = extendCRC c (a ++ b)

/-- 42_alignment_driver.md R211: the document's known vectors. -/
def Obligations.KnownVectors : Prop :=
  extendCRC 0#32 [] = 0x00000000#32 ∧
  extendCRC 0#32 [0x31#8, 0x32#8, 0x33#8, 0x34#8, 0x35#8, 0x36#8, 0x37#8, 0x38#8, 0x39#8] = 0xE3069283#32 ∧
  extendCRC 0#32 (List.replicate 32 0x00#8) = 0x8A9136AA#32 ∧
  extendCRC 0#32 (List.replicate 32 0xFF#8) = 0x62A8AB43#32

/-! ## The whole EXTEND -/

/-- 42_alignment_driver.md R183, R186, R188, R205: an `EXTEND` that nothing disturbs is accepted, is busy for
exactly the micro-steps that R188 counts, and then leaves `RESULT = Extend(CRC_IN, MemBytes(ADDR, LEN))`,
`ACC = ~RESULT`, `CUR = END = ADDR + LEN`, `DONE = 1`, and everything else as it was. -/
def Obligations.ExtendRunsToTheChecksum : Prop :=
  ∀ (s : State) (bytes : List Byte), Undisturbed s bytes →
    ∃ a : State, exec .extend s = .next a ∧
      (∀ k, k < extendSteps s → ∃ m : State, Sys2Proof.core.run k a = .next m ∧ m.status.busy = true) ∧
      Sys2Proof.core.run (extendSteps s) a = .next ({ s with
        acc := (extendCRC s.crcIn bytes ^^^ 0xFFFFFFFF#32).setWidth 64
        cur := BitVec.ofNat 65 (s.addr.toNat + s.len.toNat)
        endPos := BitVec.ofNat 65 (s.addr.toNat + s.len.toNat)
        capl := s.cap
        result := extendCRC s.crcIn bytes
        status := { s.status with busy := false, done := true }
        phase := .idle
        touched := [] } : State)

/-- 42_alignment_driver.md R205, 70_reset_and_hazards.md R267: whatever the host does meanwhile, an accepted
`EXTEND` that completes (`DONE = 1` when `BUSY` falls) with no byte of its buffer stored to leaves
`RESULT = Extend(CRC_IN, MemBytes(ADDR, LEN))` of the operands at its acceptance. -/
def Obligations.ExtendThatCompletesIsRight : Prop :=
  ∀ (s a t : State) (k : Nat), Inv s → exec .extend s = .next a →
    (∀ j, j ≤ k → ∃ m : State, Sys2Proof.core.run j a = .next m ∧ m.status.busy = true) →
    Sys2Proof.core.run (k + 1) a = .next t →
    s.status.busy = false → t.status.busy = false → t.status.done = true → t.touched = [] →
    ∃ bytes, Memory.bytes s.mem s.addr.toNat s.len.toNat = some bytes ∧
      t.result = extendCRC s.crcIn bytes

/-- 42_alignment_driver.md R208 to R210, 41_word_intrinsic_step.md R166: the result depends on the start value
and the bytes alone: not on the address, `CAP`, the units present, the batch parameters or `P_ALIGN`. -/
def Obligations.ResultIndependentOfConfiguration : Prop :=
  ∀ (s₁ s₂ : State) (bytes : List Byte), Undisturbed s₁ bytes → Undisturbed s₂ bytes → s₁.crcIn = s₂.crcIn →
    ∃ a₁ a₂ t₁ t₂ : State, exec .extend s₁ = .next a₁ ∧ exec .extend s₂ = .next a₂ ∧
      Sys2Proof.core.run (extendSteps s₁) a₁ = .next t₁ ∧ Sys2Proof.core.run (extendSteps s₂) a₂ = .next t₂ ∧
      t₁.status.done = true ∧ t₂.status.done = true ∧ t₁.result = t₂.result

/-- 42_alignment_driver.md R188, 70_reset_and_hazards.md R277: an undisturbed `EXTEND` is accepted and has
completed, with `BUSY = 0` and `DONE = 1`, after at most `LEN + 6` micro-steps; and the exact count of R188 is in
every state at most that. -/
def Obligations.ExtendStepsAreLinear : Prop :=
  (∀ (s : State) (bytes : List Byte), Undisturbed s bytes →
    ∃ (a t : State) (k : Nat), exec .extend s = .next a ∧ k ≤ s.len.toNat + 6 ∧
      Sys2Proof.core.run k a = .next t ∧ t.status.busy = false ∧ t.status.done = true) ∧
  ∀ s : State, extendSteps s ≤ s.len.toNat + 6
end

