-- ==== Sys2Proof/Laws/Checksum.lean ====
section
/-! SUPPORT. The tables are linear over XOR (40_table_lookup_datapath.md R127), and the raw checksum one byte at
a time. -/
namespace Sys2Proof.Machine

theorem tableRound_xor (a b : Word) : tableRound (a ^^^ b) = tableRound a ^^^ tableRound b := by
  unfold tableRound
  rw [BitVec.getLsbD_xor]
  cases a.getLsbD 0 <;> cases b.getLsbD 0 <;>
    (ext i hi; simp only [BitVec.getElem_xor, BitVec.getElem_ushiftRight, BitVec.getLsbD_xor]; simp; try grind)

theorem tableRounds_xor (n : Nat) (a b : Word) :
    tableRounds n (a ^^^ b) = tableRounds n a ^^^ tableRounds n b := by
  induction n generalizing a b with
  | zero => rfl
  | succ n ih => simp only [tableRounds, tableRound_xor, ih]

theorem t0_xor (a b : Byte) : t0 (a ^^^ b) = t0 a ^^^ t0 b := by
  simp only [t0, BitVec.setWidth_xor, tableRounds_xor]

theorem nextTable_xor (a b : Word) : nextTable (a ^^^ b) = nextTable a ^^^ nextTable b := by
  simp only [nextTable, BitVec.setWidth_xor, t0_xor, BitVec.ushiftRight_xor_distrib]
  ac_rfl

theorem t1_xor (a b : Byte) : t1 (a ^^^ b) = t1 a ^^^ t1 b := by
  simp only [t1, t0_xor, nextTable_xor]

theorem t2_xor (a b : Byte) : t2 (a ^^^ b) = t2 a ^^^ t2 b := by
  simp only [t2, t1_xor, nextTable_xor]

theorem t3_xor (a b : Byte) : t3 (a ^^^ b) = t3 a ^^^ t3 b := by
  simp only [t3, t2_xor, nextTable_xor]

@[simp] theorem rawCRC_nil (s : Word) : rawCRC s [] = s := rfl

@[simp] theorem rawCRC_cons (s : Word) (b : Byte) (rest : List Byte) :
    rawCRC s (b :: rest) = rawCRC (s1 s b) rest := rfl

theorem s1_eq (s : Word) (b : Byte) : s1 s b = t0 (s.setWidth 8 ^^^ b) ^^^ (s >>> 8) := by
  simp [s1, BitVec.setWidth_xor]

theorem s1_eq_nextTable (s : Word) (b : Byte) : s1 s b = nextTable (s ^^^ b.setWidth 32) := by
  have h : (s ^^^ b.setWidth 32) >>> 8 = s >>> 8 := by
    rw [BitVec.ushiftRight_xor_distrib]
    have : (b.setWidth 32 : Word) >>> 8 = 0#32 := by
      ext i hi; simp
    rw [this, BitVec.xor_zero]
  simp only [s1, nextTable, h]

end Sys2Proof.Machine
end

