-- ==== Sys2Proof/Laws/Encoding.lean ====
section
/-! SUPPORT. The fields of a command word (30_encoding.md R91): what they are in a word put together from them,
and that a word is its fields. -/
namespace Sys2Proof

/-- A word put together from `RSV`, `IMM8` and `OPC`, as a number. -/
theorem word_toNat (r : BitVec 16) (m o : Byte) :
    (r ++ m ++ o : Word).toNat = 65536 * r.toNat + 256 * m.toNat + o.toNat := by
  have hm := m.isLt
  have ho := o.isLt
  show (r ++ m ++ o : BitVec (16 + 8 + 8)).toNat = _
  rw [BitVec.toNat_append, BitVec.toNat_append, ← Nat.shiftLeft_add_eq_or_of_lt ho,
    ← Nat.shiftLeft_add_eq_or_of_lt hm]
  simp only [Nat.shiftLeft_eq]; omega

/-- The fields of a word put together with `RSV = 0`. -/
theorem fields_word (m o : Byte) :
    rsvField (0#16 ++ m ++ o) = 0#16 ∧ immField (0#16 ++ m ++ o) = m ∧ opcField (0#16 ++ m ++ o) = o := by
  have hm := m.isLt
  have ho := o.isLt
  refine ⟨?_, ?_, ?_⟩ <;> apply BitVec.eq_of_toNat_eq <;>
    simp only [rsvField, immField, opcField, BitVec.extractLsb'_toNat, word_toNat,
      Nat.shiftRight_eq_div_pow] <;> simp <;> omega

/-- A word is its three fields. -/
theorem word_fields (w : Word) : w = rsvField w ++ immField w ++ opcField w := by
  have hw := w.isLt
  apply BitVec.eq_of_toNat_eq
  rw [word_toNat]
  simp only [rsvField, immField, opcField, BitVec.extractLsb'_toNat, Nat.shiftRight_eq_div_pow]; omega

end Sys2Proof
end

