-- ==== Sys2Proof/Laws/State.lean ====
section
/-! SUPPORT. For each shared update of the state, what it leaves in each field. -/
namespace Sys2Proof.Machine

/-! ### `setAcc` -/

@[simp] theorem setAcc_params (v : Word) (s : State) : (setAcc v s).params = s.params := rfl
@[simp] theorem setAcc_status (v : Word) (s : State) : (setAcc v s).status = s.status := rfl
@[simp] theorem setAcc_cap (v : Word) (s : State) : (setAcc v s).cap = s.cap := rfl
@[simp] theorem setAcc_crcIn (v : Word) (s : State) : (setAcc v s).crcIn = s.crcIn := rfl
@[simp] theorem setAcc_addr (v : Word) (s : State) : (setAcc v s).addr = s.addr := rfl
@[simp] theorem setAcc_len (v : Word) (s : State) : (setAcc v s).len = s.len := rfl
@[simp] theorem setAcc_din (v : Word) (s : State) : (setAcc v s).din = s.din := rfl
@[simp] theorem setAcc_acc (v : Word) (s : State) : (setAcc v s).acc = zext64 v := rfl
@[simp] theorem setAcc_result (v : Word) (s : State) : (setAcc v s).result = s.result := rfl
@[simp] theorem setAcc_cur (v : Word) (s : State) : (setAcc v s).cur = s.cur := rfl
@[simp] theorem setAcc_endPos (v : Word) (s : State) : (setAcc v s).endPos = s.endPos := rfl
@[simp] theorem setAcc_phase (v : Word) (s : State) : (setAcc v s).phase = s.phase := rfl
@[simp] theorem setAcc_capl (v : Word) (s : State) : (setAcc v s).capl = s.capl := rfl
@[simp] theorem setAcc_mem (v : Word) (s : State) : (setAcc v s).mem = s.mem := rfl
@[simp] theorem setAcc_touched (v : Word) (s : State) : (setAcc v s).touched = s.touched := rfl
@[simp] theorem setAcc_draws (v : Word) (s : State) : (setAcc v s).draws = s.draws := rfl
@[simp] theorem setAcc_inputs (v : Word) (s : State) : (setAcc v s).inputs = s.inputs := rfl
@[simp] theorem setAcc_reads (v : Word) (s : State) : (setAcc v s).reads = s.reads := rfl

/-! ### `setCur` -/

@[simp] theorem setCur_params (n : Nat) (s : State) : (setCur n s).params = s.params := rfl
@[simp] theorem setCur_status (n : Nat) (s : State) : (setCur n s).status = s.status := rfl
@[simp] theorem setCur_cap (n : Nat) (s : State) : (setCur n s).cap = s.cap := rfl
@[simp] theorem setCur_crcIn (n : Nat) (s : State) : (setCur n s).crcIn = s.crcIn := rfl
@[simp] theorem setCur_addr (n : Nat) (s : State) : (setCur n s).addr = s.addr := rfl
@[simp] theorem setCur_len (n : Nat) (s : State) : (setCur n s).len = s.len := rfl
@[simp] theorem setCur_din (n : Nat) (s : State) : (setCur n s).din = s.din := rfl
@[simp] theorem setCur_acc (n : Nat) (s : State) : (setCur n s).acc = s.acc := rfl
@[simp] theorem setCur_result (n : Nat) (s : State) : (setCur n s).result = s.result := rfl
@[simp] theorem setCur_cur (n : Nat) (s : State) : (setCur n s).cur = fitPosition s.params.addrW n := rfl
@[simp] theorem setCur_endPos (n : Nat) (s : State) : (setCur n s).endPos = s.endPos := rfl
@[simp] theorem setCur_phase (n : Nat) (s : State) : (setCur n s).phase = s.phase := rfl
@[simp] theorem setCur_capl (n : Nat) (s : State) : (setCur n s).capl = s.capl := rfl
@[simp] theorem setCur_mem (n : Nat) (s : State) : (setCur n s).mem = s.mem := rfl
@[simp] theorem setCur_touched (n : Nat) (s : State) : (setCur n s).touched = s.touched := rfl
@[simp] theorem setCur_draws (n : Nat) (s : State) : (setCur n s).draws = s.draws := rfl
@[simp] theorem setCur_inputs (n : Nat) (s : State) : (setCur n s).inputs = s.inputs := rfl
@[simp] theorem setCur_reads (n : Nat) (s : State) : (setCur n s).reads = s.reads := rfl

/-! ### `setEnd` -/

@[simp] theorem setEnd_params (n : Nat) (s : State) : (setEnd n s).params = s.params := rfl
@[simp] theorem setEnd_status (n : Nat) (s : State) : (setEnd n s).status = s.status := rfl
@[simp] theorem setEnd_cap (n : Nat) (s : State) : (setEnd n s).cap = s.cap := rfl
@[simp] theorem setEnd_crcIn (n : Nat) (s : State) : (setEnd n s).crcIn = s.crcIn := rfl
@[simp] theorem setEnd_addr (n : Nat) (s : State) : (setEnd n s).addr = s.addr := rfl
@[simp] theorem setEnd_len (n : Nat) (s : State) : (setEnd n s).len = s.len := rfl
@[simp] theorem setEnd_din (n : Nat) (s : State) : (setEnd n s).din = s.din := rfl
@[simp] theorem setEnd_acc (n : Nat) (s : State) : (setEnd n s).acc = s.acc := rfl
@[simp] theorem setEnd_result (n : Nat) (s : State) : (setEnd n s).result = s.result := rfl
@[simp] theorem setEnd_cur (n : Nat) (s : State) : (setEnd n s).cur = s.cur := rfl
@[simp] theorem setEnd_endPos (n : Nat) (s : State) : (setEnd n s).endPos = fitPosition s.params.addrW n := rfl
@[simp] theorem setEnd_phase (n : Nat) (s : State) : (setEnd n s).phase = s.phase := rfl
@[simp] theorem setEnd_capl (n : Nat) (s : State) : (setEnd n s).capl = s.capl := rfl
@[simp] theorem setEnd_mem (n : Nat) (s : State) : (setEnd n s).mem = s.mem := rfl
@[simp] theorem setEnd_touched (n : Nat) (s : State) : (setEnd n s).touched = s.touched := rfl
@[simp] theorem setEnd_draws (n : Nat) (s : State) : (setEnd n s).draws = s.draws := rfl
@[simp] theorem setEnd_inputs (n : Nat) (s : State) : (setEnd n s).inputs = s.inputs := rfl
@[simp] theorem setEnd_reads (n : Nat) (s : State) : (setEnd n s).reads = s.reads := rfl

/-! ### `advance` -/

@[simp] theorem advance_params (n : Nat) (s : State) : (advance n s).params = s.params := rfl
@[simp] theorem advance_status (n : Nat) (s : State) : (advance n s).status = s.status := rfl
@[simp] theorem advance_cap (n : Nat) (s : State) : (advance n s).cap = s.cap := rfl
@[simp] theorem advance_crcIn (n : Nat) (s : State) : (advance n s).crcIn = s.crcIn := rfl
@[simp] theorem advance_addr (n : Nat) (s : State) : (advance n s).addr = s.addr := rfl
@[simp] theorem advance_len (n : Nat) (s : State) : (advance n s).len = s.len := rfl
@[simp] theorem advance_din (n : Nat) (s : State) : (advance n s).din = s.din := rfl
@[simp] theorem advance_acc (n : Nat) (s : State) : (advance n s).acc = s.acc := rfl
@[simp] theorem advance_result (n : Nat) (s : State) : (advance n s).result = s.result := rfl
@[simp] theorem advance_cur (n : Nat) (s : State) : (advance n s).cur = fitPosition s.params.addrW (s.curNat + n) := rfl
@[simp] theorem advance_endPos (n : Nat) (s : State) : (advance n s).endPos = s.endPos := rfl
@[simp] theorem advance_phase (n : Nat) (s : State) : (advance n s).phase = s.phase := rfl
@[simp] theorem advance_capl (n : Nat) (s : State) : (advance n s).capl = s.capl := rfl
@[simp] theorem advance_mem (n : Nat) (s : State) : (advance n s).mem = s.mem := rfl
@[simp] theorem advance_touched (n : Nat) (s : State) : (advance n s).touched = s.touched := rfl
@[simp] theorem advance_draws (n : Nat) (s : State) : (advance n s).draws = s.draws := rfl
@[simp] theorem advance_inputs (n : Nat) (s : State) : (advance n s).inputs = s.inputs := rfl
@[simp] theorem advance_reads (n : Nat) (s : State) : (advance n s).reads = s.reads := rfl

/-! ### `setPhase` -/

@[simp] theorem setPhase_params (p : Phase) (s : State) : (setPhase p s).params = s.params := rfl
@[simp] theorem setPhase_status (p : Phase) (s : State) : (setPhase p s).status = s.status := rfl
@[simp] theorem setPhase_cap (p : Phase) (s : State) : (setPhase p s).cap = s.cap := rfl
@[simp] theorem setPhase_crcIn (p : Phase) (s : State) : (setPhase p s).crcIn = s.crcIn := rfl
@[simp] theorem setPhase_addr (p : Phase) (s : State) : (setPhase p s).addr = s.addr := rfl
@[simp] theorem setPhase_len (p : Phase) (s : State) : (setPhase p s).len = s.len := rfl
@[simp] theorem setPhase_din (p : Phase) (s : State) : (setPhase p s).din = s.din := rfl
@[simp] theorem setPhase_acc (p : Phase) (s : State) : (setPhase p s).acc = s.acc := rfl
@[simp] theorem setPhase_result (p : Phase) (s : State) : (setPhase p s).result = s.result := rfl
@[simp] theorem setPhase_cur (p : Phase) (s : State) : (setPhase p s).cur = s.cur := rfl
@[simp] theorem setPhase_endPos (p : Phase) (s : State) : (setPhase p s).endPos = s.endPos := rfl
@[simp] theorem setPhase_phase (p : Phase) (s : State) : (setPhase p s).phase = p := rfl
@[simp] theorem setPhase_capl (p : Phase) (s : State) : (setPhase p s).capl = s.capl := rfl
@[simp] theorem setPhase_mem (p : Phase) (s : State) : (setPhase p s).mem = s.mem := rfl
@[simp] theorem setPhase_touched (p : Phase) (s : State) : (setPhase p s).touched = s.touched := rfl
@[simp] theorem setPhase_draws (p : Phase) (s : State) : (setPhase p s).draws = s.draws := rfl
@[simp] theorem setPhase_inputs (p : Phase) (s : State) : (setPhase p s).inputs = s.inputs := rfl
@[simp] theorem setPhase_reads (p : Phase) (s : State) : (setPhase p s).reads = s.reads := rfl

/-! ### `writeResult` -/

@[simp] theorem writeResult_params (s : State) : (writeResult s).params = s.params := rfl
@[simp] theorem writeResult_status (s : State) : (writeResult s).status = s.status := rfl
@[simp] theorem writeResult_cap (s : State) : (writeResult s).cap = s.cap := rfl
@[simp] theorem writeResult_crcIn (s : State) : (writeResult s).crcIn = s.crcIn := rfl
@[simp] theorem writeResult_addr (s : State) : (writeResult s).addr = s.addr := rfl
@[simp] theorem writeResult_len (s : State) : (writeResult s).len = s.len := rfl
@[simp] theorem writeResult_din (s : State) : (writeResult s).din = s.din := rfl
@[simp] theorem writeResult_acc (s : State) : (writeResult s).acc = s.acc := rfl
@[simp] theorem writeResult_result (s : State) : (writeResult s).result = complement s.acc32 := rfl
@[simp] theorem writeResult_cur (s : State) : (writeResult s).cur = s.cur := rfl
@[simp] theorem writeResult_endPos (s : State) : (writeResult s).endPos = s.endPos := rfl
@[simp] theorem writeResult_phase (s : State) : (writeResult s).phase = s.phase := rfl
@[simp] theorem writeResult_capl (s : State) : (writeResult s).capl = s.capl := rfl
@[simp] theorem writeResult_mem (s : State) : (writeResult s).mem = s.mem := rfl
@[simp] theorem writeResult_touched (s : State) : (writeResult s).touched = s.touched := rfl
@[simp] theorem writeResult_draws (s : State) : (writeResult s).draws = s.draws := rfl
@[simp] theorem writeResult_inputs (s : State) : (writeResult s).inputs = s.inputs := rfl
@[simp] theorem writeResult_reads (s : State) : (writeResult s).reads = s.reads := rfl

/-! ### `raiseError` -/

@[simp] theorem raiseError_params (e : EngineError) (s : State) : (raiseError e s).params = s.params := rfl
@[simp] theorem raiseError_status (e : EngineError) (s : State) : (raiseError e s).status = s.status.record e := rfl
@[simp] theorem raiseError_cap (e : EngineError) (s : State) : (raiseError e s).cap = s.cap := rfl
@[simp] theorem raiseError_crcIn (e : EngineError) (s : State) : (raiseError e s).crcIn = s.crcIn := rfl
@[simp] theorem raiseError_addr (e : EngineError) (s : State) : (raiseError e s).addr = s.addr := rfl
@[simp] theorem raiseError_len (e : EngineError) (s : State) : (raiseError e s).len = s.len := rfl
@[simp] theorem raiseError_din (e : EngineError) (s : State) : (raiseError e s).din = s.din := rfl
@[simp] theorem raiseError_acc (e : EngineError) (s : State) : (raiseError e s).acc = s.acc := rfl
@[simp] theorem raiseError_result (e : EngineError) (s : State) : (raiseError e s).result = s.result := rfl
@[simp] theorem raiseError_cur (e : EngineError) (s : State) : (raiseError e s).cur = s.cur := rfl
@[simp] theorem raiseError_endPos (e : EngineError) (s : State) : (raiseError e s).endPos = s.endPos := rfl
@[simp] theorem raiseError_phase (e : EngineError) (s : State) : (raiseError e s).phase = s.phase := rfl
@[simp] theorem raiseError_capl (e : EngineError) (s : State) : (raiseError e s).capl = s.capl := rfl
@[simp] theorem raiseError_mem (e : EngineError) (s : State) : (raiseError e s).mem = s.mem := rfl
@[simp] theorem raiseError_touched (e : EngineError) (s : State) : (raiseError e s).touched = s.touched := rfl
@[simp] theorem raiseError_draws (e : EngineError) (s : State) : (raiseError e s).draws = s.draws := rfl
@[simp] theorem raiseError_inputs (e : EngineError) (s : State) : (raiseError e s).inputs = s.inputs := rfl
@[simp] theorem raiseError_reads (e : EngineError) (s : State) : (raiseError e s).reads = s.reads := rfl

/-! ### `clearDone` -/

@[simp] theorem clearDone_params (s : State) : (clearDone s).params = s.params := rfl
@[simp] theorem clearDone_status (s : State) : (clearDone s).status = { s.status with done := false } := rfl
@[simp] theorem clearDone_cap (s : State) : (clearDone s).cap = s.cap := rfl
@[simp] theorem clearDone_crcIn (s : State) : (clearDone s).crcIn = s.crcIn := rfl
@[simp] theorem clearDone_addr (s : State) : (clearDone s).addr = s.addr := rfl
@[simp] theorem clearDone_len (s : State) : (clearDone s).len = s.len := rfl
@[simp] theorem clearDone_din (s : State) : (clearDone s).din = s.din := rfl
@[simp] theorem clearDone_acc (s : State) : (clearDone s).acc = s.acc := rfl
@[simp] theorem clearDone_result (s : State) : (clearDone s).result = s.result := rfl
@[simp] theorem clearDone_cur (s : State) : (clearDone s).cur = s.cur := rfl
@[simp] theorem clearDone_endPos (s : State) : (clearDone s).endPos = s.endPos := rfl
@[simp] theorem clearDone_phase (s : State) : (clearDone s).phase = s.phase := rfl
@[simp] theorem clearDone_capl (s : State) : (clearDone s).capl = s.capl := rfl
@[simp] theorem clearDone_mem (s : State) : (clearDone s).mem = s.mem := rfl
@[simp] theorem clearDone_touched (s : State) : (clearDone s).touched = s.touched := rfl
@[simp] theorem clearDone_draws (s : State) : (clearDone s).draws = s.draws := rfl
@[simp] theorem clearDone_inputs (s : State) : (clearDone s).inputs = s.inputs := rfl
@[simp] theorem clearDone_reads (s : State) : (clearDone s).reads = s.reads := rfl

/-! ### `setDone` -/

@[simp] theorem setDone_params (s : State) : (setDone s).params = s.params := rfl
@[simp] theorem setDone_status (s : State) : (setDone s).status = { s.status with done := true } := rfl
@[simp] theorem setDone_cap (s : State) : (setDone s).cap = s.cap := rfl
@[simp] theorem setDone_crcIn (s : State) : (setDone s).crcIn = s.crcIn := rfl
@[simp] theorem setDone_addr (s : State) : (setDone s).addr = s.addr := rfl
@[simp] theorem setDone_len (s : State) : (setDone s).len = s.len := rfl
@[simp] theorem setDone_din (s : State) : (setDone s).din = s.din := rfl
@[simp] theorem setDone_acc (s : State) : (setDone s).acc = s.acc := rfl
@[simp] theorem setDone_result (s : State) : (setDone s).result = s.result := rfl
@[simp] theorem setDone_cur (s : State) : (setDone s).cur = s.cur := rfl
@[simp] theorem setDone_endPos (s : State) : (setDone s).endPos = s.endPos := rfl
@[simp] theorem setDone_phase (s : State) : (setDone s).phase = s.phase := rfl
@[simp] theorem setDone_capl (s : State) : (setDone s).capl = s.capl := rfl
@[simp] theorem setDone_mem (s : State) : (setDone s).mem = s.mem := rfl
@[simp] theorem setDone_touched (s : State) : (setDone s).touched = s.touched := rfl
@[simp] theorem setDone_draws (s : State) : (setDone s).draws = s.draws := rfl
@[simp] theorem setDone_inputs (s : State) : (setDone s).inputs = s.inputs := rfl
@[simp] theorem setDone_reads (s : State) : (setDone s).reads = s.reads := rfl

/-! ### `setBusy` -/

@[simp] theorem setBusy_params (b : Bool) (s : State) : (setBusy b s).params = s.params := rfl
@[simp] theorem setBusy_status (b : Bool) (s : State) : (setBusy b s).status = { s.status with busy := b } := rfl
@[simp] theorem setBusy_cap (b : Bool) (s : State) : (setBusy b s).cap = s.cap := rfl
@[simp] theorem setBusy_crcIn (b : Bool) (s : State) : (setBusy b s).crcIn = s.crcIn := rfl
@[simp] theorem setBusy_addr (b : Bool) (s : State) : (setBusy b s).addr = s.addr := rfl
@[simp] theorem setBusy_len (b : Bool) (s : State) : (setBusy b s).len = s.len := rfl
@[simp] theorem setBusy_din (b : Bool) (s : State) : (setBusy b s).din = s.din := rfl
@[simp] theorem setBusy_acc (b : Bool) (s : State) : (setBusy b s).acc = s.acc := rfl
@[simp] theorem setBusy_result (b : Bool) (s : State) : (setBusy b s).result = s.result := rfl
@[simp] theorem setBusy_cur (b : Bool) (s : State) : (setBusy b s).cur = s.cur := rfl
@[simp] theorem setBusy_endPos (b : Bool) (s : State) : (setBusy b s).endPos = s.endPos := rfl
@[simp] theorem setBusy_phase (b : Bool) (s : State) : (setBusy b s).phase = s.phase := rfl
@[simp] theorem setBusy_capl (b : Bool) (s : State) : (setBusy b s).capl = s.capl := rfl
@[simp] theorem setBusy_mem (b : Bool) (s : State) : (setBusy b s).mem = s.mem := rfl
@[simp] theorem setBusy_touched (b : Bool) (s : State) : (setBusy b s).touched = s.touched := rfl
@[simp] theorem setBusy_draws (b : Bool) (s : State) : (setBusy b s).draws = s.draws := rfl
@[simp] theorem setBusy_inputs (b : Bool) (s : State) : (setBusy b s).inputs = s.inputs := rfl
@[simp] theorem setBusy_reads (b : Bool) (s : State) : (setBusy b s).reads = s.reads := rfl

/-! ### `abort` -/

@[simp] theorem abort_params (s : State) : (abort s).params = s.params := rfl
@[simp] theorem abort_status (s : State) : (abort s).status = { s.status.record .busErr with busy := false, done := false } := rfl
@[simp] theorem abort_cap (s : State) : (abort s).cap = s.cap := rfl
@[simp] theorem abort_crcIn (s : State) : (abort s).crcIn = s.crcIn := rfl
@[simp] theorem abort_addr (s : State) : (abort s).addr = s.addr := rfl
@[simp] theorem abort_len (s : State) : (abort s).len = s.len := rfl
@[simp] theorem abort_din (s : State) : (abort s).din = s.din := rfl
@[simp] theorem abort_acc (s : State) : (abort s).acc = zext64 (Config.freeAcc s.draws) := rfl
@[simp] theorem abort_result (s : State) : (abort s).result = s.result := rfl
@[simp] theorem abort_cur (s : State) : (abort s).cur = fitPosition s.params.addrW (Config.freeCur s.draws).toNat := rfl
@[simp] theorem abort_endPos (s : State) : (abort s).endPos = s.endPos := rfl
@[simp] theorem abort_phase (s : State) : (abort s).phase = .idle := rfl
@[simp] theorem abort_capl (s : State) : (abort s).capl = s.capl := rfl
@[simp] theorem abort_mem (s : State) : (abort s).mem = s.mem := rfl
@[simp] theorem abort_touched (s : State) : (abort s).touched = s.touched := rfl
@[simp] theorem abort_draws (s : State) : (abort s).draws = s.draws + 1 := rfl
@[simp] theorem abort_inputs (s : State) : (abort s).inputs = s.inputs := rfl
@[simp] theorem abort_reads (s : State) : (abort s).reads = s.reads := rfl

/-! ### `resetEngine` -/

@[simp] theorem resetEngine_params (s : State) : (resetEngine s).params = s.params := rfl
@[simp] theorem resetEngine_status (s : State) : (resetEngine s).status = Status.reset := rfl
@[simp] theorem resetEngine_cap (s : State) : (resetEngine s).cap = Cap.reset := rfl
@[simp] theorem resetEngine_crcIn (s : State) : (resetEngine s).crcIn = 0 := rfl
@[simp] theorem resetEngine_addr (s : State) : (resetEngine s).addr = 0 := rfl
@[simp] theorem resetEngine_len (s : State) : (resetEngine s).len = 0 := rfl
@[simp] theorem resetEngine_din (s : State) : (resetEngine s).din = 0 := rfl
@[simp] theorem resetEngine_acc (s : State) : (resetEngine s).acc = 0 := rfl
@[simp] theorem resetEngine_result (s : State) : (resetEngine s).result = 0 := rfl
@[simp] theorem resetEngine_cur (s : State) : (resetEngine s).cur = 0 := rfl
@[simp] theorem resetEngine_endPos (s : State) : (resetEngine s).endPos = 0 := rfl
@[simp] theorem resetEngine_phase (s : State) : (resetEngine s).phase = .idle := rfl
@[simp] theorem resetEngine_capl (s : State) : (resetEngine s).capl = Cap.reset := rfl
@[simp] theorem resetEngine_mem (s : State) : (resetEngine s).mem = s.mem := rfl
@[simp] theorem resetEngine_touched (s : State) : (resetEngine s).touched = [] := rfl
@[simp] theorem resetEngine_draws (s : State) : (resetEngine s).draws = s.draws := rfl
@[simp] theorem resetEngine_inputs (s : State) : (resetEngine s).inputs = s.inputs := rfl
@[simp] theorem resetEngine_reads (s : State) : (resetEngine s).reads = s.reads := rfl

/-! ### `beginExtend` -/

@[simp] theorem beginExtend_params (s : State) : (beginExtend s).params = s.params := rfl
@[simp] theorem beginExtend_status (s : State) : (beginExtend s).status = { s.status with busy := true } := rfl
@[simp] theorem beginExtend_cap (s : State) : (beginExtend s).cap = s.cap := rfl
@[simp] theorem beginExtend_crcIn (s : State) : (beginExtend s).crcIn = s.crcIn := rfl
@[simp] theorem beginExtend_addr (s : State) : (beginExtend s).addr = s.addr := rfl
@[simp] theorem beginExtend_len (s : State) : (beginExtend s).len = s.len := rfl
@[simp] theorem beginExtend_din (s : State) : (beginExtend s).din = s.din := rfl
@[simp] theorem beginExtend_acc (s : State) : (beginExtend s).acc = zext64 (complement s.crcIn) := rfl
@[simp] theorem beginExtend_result (s : State) : (beginExtend s).result = s.result := rfl
@[simp] theorem beginExtend_cur (s : State) : (beginExtend s).cur = fitPosition s.params.addrW s.addr.toNat := rfl
@[simp] theorem beginExtend_endPos (s : State) : (beginExtend s).endPos = fitPosition s.params.addrW (s.addr.toNat + s.len.toNat) := rfl
@[simp] theorem beginExtend_phase (s : State) : (beginExtend s).phase = firstPhase s := rfl
@[simp] theorem beginExtend_capl (s : State) : (beginExtend s).capl = s.cap := rfl
@[simp] theorem beginExtend_mem (s : State) : (beginExtend s).mem = s.mem := rfl
@[simp] theorem beginExtend_touched (s : State) : (beginExtend s).touched = [] := rfl
@[simp] theorem beginExtend_draws (s : State) : (beginExtend s).draws = s.draws := rfl
@[simp] theorem beginExtend_inputs (s : State) : (beginExtend s).inputs = s.inputs := rfl
@[simp] theorem beginExtend_reads (s : State) : (beginExtend s).reads = s.reads := rfl

/-! ### `deliver` -/

@[simp] theorem deliver_params (v : Word) (s : State) : (deliver v s).params = s.params := rfl
@[simp] theorem deliver_status (v : Word) (s : State) : (deliver v s).status = s.status := rfl
@[simp] theorem deliver_cap (v : Word) (s : State) : (deliver v s).cap = s.cap := rfl
@[simp] theorem deliver_crcIn (v : Word) (s : State) : (deliver v s).crcIn = s.crcIn := rfl
@[simp] theorem deliver_addr (v : Word) (s : State) : (deliver v s).addr = s.addr := rfl
@[simp] theorem deliver_len (v : Word) (s : State) : (deliver v s).len = s.len := rfl
@[simp] theorem deliver_din (v : Word) (s : State) : (deliver v s).din = s.din := rfl
@[simp] theorem deliver_acc (v : Word) (s : State) : (deliver v s).acc = s.acc := rfl
@[simp] theorem deliver_result (v : Word) (s : State) : (deliver v s).result = s.result := rfl
@[simp] theorem deliver_cur (v : Word) (s : State) : (deliver v s).cur = s.cur := rfl
@[simp] theorem deliver_endPos (v : Word) (s : State) : (deliver v s).endPos = s.endPos := rfl
@[simp] theorem deliver_phase (v : Word) (s : State) : (deliver v s).phase = s.phase := rfl
@[simp] theorem deliver_capl (v : Word) (s : State) : (deliver v s).capl = s.capl := rfl
@[simp] theorem deliver_mem (v : Word) (s : State) : (deliver v s).mem = s.mem := rfl
@[simp] theorem deliver_touched (v : Word) (s : State) : (deliver v s).touched = s.touched := rfl
@[simp] theorem deliver_draws (v : Word) (s : State) : (deliver v s).draws = s.draws := rfl
@[simp] theorem deliver_inputs (v : Word) (s : State) : (deliver v s).inputs = s.inputs := rfl
@[simp] theorem deliver_reads (v : Word) (s : State) : (deliver v s).reads = v :: s.reads := rfl

end Sys2Proof.Machine
end

