-- ==== Sys2Proof/Laws/Memory.lean ====
section
/-! SUPPORT. The laws of the buffer memory: reading after writing, the canonical form, and what a read of several
places answers. -/
namespace Sys2Proof.Machine

theorem lookup_insert_self (m : List Host.Cell) (a : Nat) (b : Byte) :
    Memory.lookup (Memory.insert m a b) a = some b := by
  induction m with
  | nil => simp [Memory.insert, Memory.lookup]
  | cons c rest ih =>
    obtain ⟨k, v⟩ := c
    simp only [Memory.insert]
    split
    · simp [Memory.lookup]
    · split
      · simp [Memory.lookup]
      · simp only [Memory.lookup]; rw [if_neg (by omega), ih]

theorem lookup_insert_other (m : List Host.Cell) (a x : Nat) (b : Byte) (h : x ≠ a) :
    Memory.lookup (Memory.insert m a b) x = Memory.lookup m x := by
  induction m with
  | nil => simp [Memory.insert, Memory.lookup, Ne.symm h]
  | cons c rest ih =>
    obtain ⟨k, v⟩ := c
    simp only [Memory.insert]
    split
    · simp [Memory.lookup, Ne.symm h]
    · split
      · rename_i h1 h2; subst h2; simp [Memory.lookup, Ne.symm h]
      · simp only [Memory.lookup, ih]

theorem mem_insert (m : List Host.Cell) (a : Nat) (b : Byte) (c : Host.Cell)
    (h : c ∈ Memory.insert m a b) : c = (a, b) ∨ c ∈ m := by
  induction m with
  | nil => simpa [Memory.insert] using h
  | cons d rest ih =>
    obtain ⟨k, v⟩ := d
    simp only [Memory.insert] at h
    split at h
    · simpa using h
    · split at h
      · simp only [List.mem_cons] at h ⊢; tauto
      · simp only [List.mem_cons] at h ⊢
        rcases h with h | h
        · exact .inr (.inl h)
        · rcases ih h with h | h <;> tauto

/-- A store keeps the canonical form. -/
theorem insert_wf (m : List Host.Cell) (a : Nat) (b : Byte) (h : Memory.wf m) :
    Memory.wf (Memory.insert m a b) := by
  induction m with
  | nil => simp [Memory.insert, Memory.wf]
  | cons d rest ih =>
    obtain ⟨k, v⟩ := d
    simp only [Memory.wf, List.pairwise_cons] at h
    simp only [Memory.insert]
    split
    · rename_i hk
      refine List.pairwise_cons.2 ⟨?_, List.pairwise_cons.2 ⟨h.1, h.2⟩⟩
      intro c hc
      rcases List.mem_cons.1 hc with rfl | hc
      · exact hk
      · exact lt_trans hk (h.1 c hc)
    · split
      · rename_i _ he; subst he
        exact List.pairwise_cons.2 ⟨h.1, h.2⟩
      · rename_i h1 h2
        refine List.pairwise_cons.2 ⟨?_, ih h.2⟩
        intro c hc
        rcases mem_insert _ _ _ _ hc with rfl | hc
        · show k < a; omega
        · exact h.1 c hc

theorem bytes_length (m : List Host.Cell) (a n : Nat) (bs : List Byte)
    (h : Memory.bytes m a n = some bs) : bs.length = n := by
  induction n generalizing a bs with
  | zero => simp [Memory.bytes] at h; simp [← h]
  | succ n ih =>
    simp only [Memory.bytes] at h
    split at h
    · rename_i b rest _ h2
      simp only [Option.some.injEq] at h
      simp [← h, ih _ _ h2]
    · simp at h

theorem bytes_append (m : List Host.Cell) (a n k : Nat) (xs ys : List Byte)
    (hx : Memory.bytes m a n = some xs) (hy : Memory.bytes m (a + n) k = some ys) :
    Memory.bytes m a (n + k) = some (xs ++ ys) := by
  induction n generalizing a xs with
  | zero =>
    obtain rfl : [] = xs := by simpa [Memory.bytes] using hx
    simpa using hy
  | succ n ih =>
    simp only [Memory.bytes] at hx
    split at hx
    · rename_i b rest h1 h2
      simp only [Option.some.injEq] at hx
      have := ih (a + 1) rest h2 (by rw [show a + 1 + n = a + (n + 1) by omega]; exact hy)
      rw [show n + 1 + k = (n + k) + 1 by omega]
      simp [Memory.bytes, h1, this, ← hx]
    · simp at hx

theorem bytes_split (m : List Host.Cell) (a n k : Nat) (bs : List Byte)
    (h : Memory.bytes m a (n + k) = some bs) :
    ∃ xs ys, Memory.bytes m a n = some xs ∧ Memory.bytes m (a + n) k = some ys ∧ bs = xs ++ ys := by
  induction n generalizing a bs with
  | zero => exact ⟨[], bs, rfl, by simpa using h, rfl⟩
  | succ n ih =>
    rw [show n + 1 + k = (n + k) + 1 by omega] at h
    simp only [Memory.bytes] at h
    split at h
    · rename_i b rest h1 h2
      obtain ⟨xs, ys, hx, hy, rfl⟩ := ih _ _ h2
      simp only [Option.some.injEq] at h
      refine ⟨b :: xs, ys, by simp [Memory.bytes, h1, hx], ?_, by simp [← h]⟩
      rw [show a + (n + 1) = a + 1 + n by omega]; exact hy
    · simp at h

/-- The bytes of a range depend only on what its places hold. -/
theorem bytes_congr (m m' : List Host.Cell) (a n : Nat)
    (h : ∀ x, a ≤ x → x < a + n → Memory.lookup m' x = Memory.lookup m x) :
    Memory.bytes m' a n = Memory.bytes m a n := by
  induction n generalizing a with
  | zero => rfl
  | succ n ih =>
    simp only [Memory.bytes]
    rw [h a (by omega) (by omega), ih (a + 1) (fun x h1 h2 => h x (by omega) (by omega))]

/-- With no place touched, the read port gets what the memory holds. -/
theorem busBytes_eq_bytes (s : State) (a n : Nat) (h : s.touched = []) :
    s.busBytes a n = Memory.bytes s.mem a n := by
  induction n generalizing a with
  | zero => rfl
  | succ n ih =>
    simp only [State.busBytes, Memory.bytes, State.busByte, h, ih]
    cases Memory.lookup s.mem a <;> simp

/-- A read of several places gets an error exactly when one of them holds no byte, touched or not. -/
theorem busBytes_none_iff (s : State) (a n : Nat) :
    s.busBytes a n = none ↔ Memory.bytes s.mem a n = none := by
  induction n generalizing a with
  | zero => simp [State.busBytes, Memory.bytes]
  | succ n ih =>
    simp only [State.busBytes, Memory.bytes, State.busByte]
    have := ih (a + 1)
    cases Memory.lookup s.mem a <;> cases h1 : s.busBytes (a + 1) n <;>
      cases h2 : Memory.bytes s.mem (a + 1) n <;> simp_all

theorem busBytes_length (s : State) (a n : Nat) (bs : List Byte) (h : s.busBytes a n = some bs) :
    bs.length = n := by
  induction n generalizing a bs with
  | zero => simp [State.busBytes] at h; simp [← h]
  | succ n ih =>
    simp only [State.busBytes] at h
    split at h
    · rename_i b rest _ h2
      simp only [Option.some.injEq] at h
      simp [← h, ih _ _ h2]
    · simp at h

theorem busBytes_split (s : State) (a n k : Nat) (bs : List Byte) (h : s.busBytes a (n + k) = some bs) :
    ∃ xs ys, s.busBytes a n = some xs ∧ s.busBytes (a + n) k = some ys ∧ bs = xs ++ ys := by
  induction n generalizing a bs with
  | zero => exact ⟨[], bs, rfl, by simpa using h, rfl⟩
  | succ n ih =>
    rw [show n + 1 + k = (n + k) + 1 by omega] at h
    simp only [State.busBytes] at h
    split at h
    · rename_i b rest h1 h2
      obtain ⟨xs, ys, hx, hy, rfl⟩ := ih _ _ h2
      simp only [Option.some.injEq] at h
      refine ⟨b :: xs, ys, by simp [State.busBytes, h1, hx], ?_, by simp [← h]⟩
      rw [show a + (n + 1) = a + 1 + n by omega]; exact hy
    · simp at h

theorem sideEffectIn_append (p : Config.Params) (a n k : Nat) :
    sideEffectIn p a (n + k) = (sideEffectIn p a n || sideEffectIn p (a + n) k) := by
  induction n generalizing a with
  | zero => simp [sideEffectIn]
  | succ n ih =>
    rw [show n + 1 + k = (n + k) + 1 by omega]
    simp only [sideEffectIn, ih]
    rw [show a + (n + 1) = a + 1 + n by omega, Bool.or_assoc]

/-- One place with a side effect makes every read over it one. -/
theorem sideEffectIn_of_at (p : Config.Params) (a n k : Nat) (hk : k < n)
    (h : sideEffectAt p (a + k) = true) : sideEffectIn p a n = true := by
  obtain ⟨r, rfl⟩ := Nat.exists_eq_add_of_lt hk
  rw [Nat.add_assoc, sideEffectIn_append]
  simp [sideEffectIn, h]

/-- The one way a read of several places answers with data. -/
theorem memBytes_data_iff (s : State) (a n : Nat) (bs : List Byte) :
    s.memBytes a n = .data bs ↔ sideEffectIn s.params a n = false ∧ s.busBytes a n = some bs := by
  unfold State.memBytes
  cases sideEffectIn s.params a n <;> cases s.busBytes a n <;> simp

theorem memBytes_busError_iff (s : State) (a n : Nat) :
    s.memBytes a n = .busError ↔ sideEffectIn s.params a n = false ∧ Memory.bytes s.mem a n = none := by
  rw [← busBytes_none_iff]
  unfold State.memBytes
  cases sideEffectIn s.params a n <;> cases s.busBytes a n <;> simp

theorem memBytes_sideEffect_iff (s : State) (a n : Nat) :
    s.memBytes a n = .sideEffect ↔ sideEffectIn s.params a n = true := by
  unfold State.memBytes
  cases sideEffectIn s.params a n <;> cases s.busBytes a n <;> simp

theorem memBytes_length (s : State) (a n : Nat) (bs : List Byte) (h : s.memBytes a n = .data bs) :
    bs.length = n :=
  busBytes_length s a n bs ((memBytes_data_iff s a n bs).1 h).2

/-- A read answers with data in two parts when it answers with data as a whole. -/
theorem memBytes_split (s : State) (a n k : Nat) (bs : List Byte) (h : s.memBytes a (n + k) = .data bs) :
    ∃ xs ys, s.memBytes a n = .data xs ∧ s.memBytes (a + n) k = .data ys ∧ bs = xs ++ ys := by
  obtain ⟨h1, h2⟩ := (memBytes_data_iff ..).1 h
  rw [sideEffectIn_append, Bool.or_eq_false_iff] at h1
  obtain ⟨xs, ys, hx, hy, rfl⟩ := busBytes_split _ _ _ _ _ h2
  exact ⟨xs, ys, (memBytes_data_iff ..).2 ⟨h1.1, hx⟩, (memBytes_data_iff ..).2 ⟨h1.2, hy⟩, rfl⟩

theorem memRead_data_iff (s : State) (a n : Nat) (v : BitVec (8 * n)) :
    s.memRead a n = .data v ↔
      ∃ bs, s.memBytes a n = .data bs ∧ v = BitVec.ofNat (8 * n) (littleEndian bs) := by
  unfold State.memRead
  cases s.memBytes a n <;> simp [ReadResult.map, eq_comm]

/-- A sequence of two reads answers with data when both do. -/
theorem andThen_data_iff {α β : Type} (r : ReadResult α) (k : α → ReadResult β) (y : β) :
    r.andThen k = .data y ↔ ∃ x, r = .data x ∧ k x = .data y := by
  cases r <;> simp [ReadResult.andThen]

theorem map_data_iff {α β : Type} (r : ReadResult α) (f : α → β) (y : β) :
    r.map f = .data y ↔ ∃ x, r = .data x ∧ f x = y := by
  cases r <;> simp [ReadResult.map]

end Sys2Proof.Machine
end

