-- ==== Sys2Proof/Laws/Ops.lean ====
section
/-! SUPPORT. For each shared operation, what it can do. -/
namespace Sys2Proof.Machine

/-! ### Words and positions -/

@[simp] theorem loHalf_zext64 (v : Word) : loHalf (zext64 v) = v := by
  simp only [loHalf, zext64]; ext i hi; simp [BitVec.getLsbD_eq_getElem, hi]; omega

@[simp] theorem hiHalf_zext64 (v : Word) : hiHalf (zext64 v) = 0#32 := by
  simp only [hiHalf, zext64]; ext i hi; simp

@[simp] theorem setAcc_acc32 (v : Word) (s : State) : (setAcc v s).acc32 = v := by
  simp [State.acc32]

theorem fitPosition_lt (w n : Nat) : (fitPosition w n).toNat < 2 ^ (w + 1) := by
  rw [fitPosition, BitVec.toNat_ofNat]
  exact lt_of_le_of_lt (Nat.mod_le _ _) (Nat.mod_lt _ (Nat.two_pow_pos _))

/-- A number of `P_ADDR_W` bits, or the one above them, is not narrowed. -/
theorem fitPosition_toNat (w n : Nat) (hw : w ≤ 64) (hn : n ≤ 2 ^ w) : (fitPosition w n).toNat = n := by
  have h1 : 2 ^ w < 2 ^ (w + 1) := Nat.pow_lt_pow_right (by omega) (by omega)
  have h2 : 2 ^ (w + 1) ≤ 2 ^ 65 := Nat.pow_le_pow_right (by omega) (by omega)
  rw [fitPosition, BitVec.toNat_ofNat, Nat.mod_eq_of_lt (a := n) (by omega), Nat.mod_eq_of_lt (by omega)]

theorem fitPosition_eq_ofNat (w n : Nat) (hn : n ≤ 2 ^ w) :
    fitPosition w n = BitVec.ofNat 65 n := by
  have h1 : 2 ^ w < 2 ^ (w + 1) := Nat.pow_lt_pow_right (by omega) (by omega)
  rw [fitPosition, Nat.mod_eq_of_lt (by omega)]

/-! ### Acceptance -/

/-- A busy engine answers BUSY. -/
theorem accept_busy (i : Instr) (k : State → State) (s : State) (h : s.status.busy = true) :
    accept i k s = .next (raiseError .busy s) := by
  simp [accept, h]

/-- An idle engine without the unit answers UNAVAIL. -/
theorem accept_unavail (i : Instr) (k : State → State) (s : State) (h : s.status.busy = false)
    (hu : unitPresent s.params i = false) : accept i k s = .next (raiseError .unavail (clearDone s)) := by
  simp [accept, h, hu]

/-- An idle engine with the unit goes on to the command's own rule. -/
theorem accept_accepted (i : Instr) (k : State → State) (s : State) (h : s.status.busy = false)
    (hu : unitPresent s.params i = true) : accept i k s = .next (k (clearDone s)) := by
  simp [accept, h, hu]

theorem atomic_busy (i : Instr) (e : State → State) (s : State) (h : s.status.busy = true) :
    atomic i e s = .next (raiseError .busy s) := accept_busy i _ s h

theorem atomic_unavail (i : Instr) (e : State → State) (s : State) (h : s.status.busy = false)
    (hu : unitPresent s.params i = false) : atomic i e s = .next (raiseError .unavail (clearDone s)) :=
  accept_unavail i _ s h hu

theorem atomic_accepted (i : Instr) (e : State → State) (s : State) (h : s.status.busy = false)
    (hu : unitPresent s.params i = true) : atomic i e s = .next (setDone (e (clearDone s))) :=
  accept_accepted i _ s h hu

/-! ### What each command is, as an acceptance -/

theorem exec_nop (s : State) :
    exec .nop s = atomic .nop (fun s => s) s := rfl

theorem exec_init (s : State) :
    exec .init s = atomic .init (fun s => setAcc (complement s.crcIn) s) s := rfl

theorem exec_final (s : State) :
    exec .final s = atomic .final writeResult s := rfl

theorem exec_step1 (b : Byte) (s : State) :
    exec (.step1 b) s = atomic (.step1 b) (fun s => setAcc (s1 s.acc32 b) s) s := rfl

theorem exec_step4 (s : State) :
    exec .step4 s = atomic .step4 (fun s => setAcc (s4 s.acc32 s.din32) s) s := rfl

theorem exec_swstep (s : State) :
    exec .swstep s = atomic .swstep (fun s => setAcc (swStepFn s.acc32 s.din32 s.dinHi32) s) s := rfl

theorem exec_crc32cW (s : State) :
    exec .crc32cW s = atomic .crc32cW (fun s => setAcc (crc32cWFn s.acc32 s.din32) s) s := rfl

theorem exec_crc32cD (s : State) :
    exec .crc32cD s = atomic .crc32cD (fun s => setAcc (crc32cDFn s.acc32 s.din) s) s := rfl

theorem exec_neonD (s : State) :
    exec .neonD s = atomic .neonD (fun s => setAcc (crc32cDFn s.acc32 s.din) s) s := rfl

theorem exec_wstep (s : State) :
    exec .wstep s = atomic .wstep (fun s => setAcc (wordStepReg s.cap.sel s) s) s := rfl

theorem exec_extend (s : State) : exec .extend s = accept .extend acceptExtend s := rfl

/-- What the acceptance procedure can answer. -/
theorem accept_next (i : Instr) (k : State → State) (s t : State) (h : accept i k s = .next t) :
    (s.status.busy = true ∧ t = raiseError .busy s) ∨
    (s.status.busy = false ∧ unitPresent s.params i = false ∧ t = raiseError .unavail (clearDone s)) ∨
    (s.status.busy = false ∧ unitPresent s.params i = true ∧ t = k (clearDone s)) := by
  unfold accept at h
  cases hb : s.status.busy <;> cases hu : unitPresent s.params i <;>
    simp [hb, hu] at h <;> simp [h]

/-- What an atomic command that is accepted does to the state, up to `DONE`. -/
inductive Effect (i : Instr) (s : State) : State → Prop where
  | nothing : i = .nop → Effect i s s
  | accumulates (v : Word) : i ≠ .nop → i ≠ .final → Effect i s (setAcc v s)
  | finishes : i = .final → Effect i s (writeResult s)

/-- What a command can answer. -/
theorem exec_next (i : Instr) (s t : State) (h : exec i s = .next t) :
    (s.status.busy = true ∧ t = raiseError .busy s) ∨
    (s.status.busy = false ∧ unitPresent s.params i = false ∧ t = raiseError .unavail (clearDone s)) ∨
    (s.status.busy = false ∧ unitPresent s.params i = true ∧ i = .extend ∧ t = acceptExtend (clearDone s)) ∨
    (s.status.busy = false ∧ unitPresent s.params i = true ∧ i ≠ .extend ∧
      ∃ u, Effect i (clearDone s) u ∧ t = setDone u) := by
  cases i <;> simp only [exec, execNop, execInit, execFinal, execStep1, execStep4, execSwstep, execCrc32cW,
    execCrc32cD, execNeonD, execWstep, execExtend, atomic] at h <;>
    rcases accept_next _ _ _ _ h with ⟨h1, h2⟩ | ⟨h1, h2, h3⟩ | ⟨h1, h2, h3⟩
  all_goals first
    | exact .inl ⟨h1, h2⟩
    | exact .inr (.inl ⟨h1, h2, h3⟩)
    | exact .inr (.inr (.inl ⟨h1, h2, rfl, h3⟩))
    | exact .inr (.inr (.inr ⟨h1, h2, by simp, _, .nothing rfl, h3⟩))
    | exact .inr (.inr (.inr ⟨h1, h2, by simp, _, .accumulates _ (by simp) (by simp), h3⟩))
    | exact .inr (.inr (.inr ⟨h1, h2, by simp, _, .finishes rfl, h3⟩))

/-! ### Reads and micro-steps -/

theorem finishReads_next (s t : State) (r : ReadResult State) (h : finishReads s r = .next t) :
    r = .data t ∨ (r = .busError ∧ t = abort s) := by
  cases r <;> simp [finishReads] at h <;> simp [h]

/-- What a word step answers with: the 8 bytes at `CUR` were read, `ACC` is written and `CUR` advanced by 8. -/
theorem wordStepMem_data (sel : Sel) (s t : State) (h : wordStepMem sel s = .data t) :
    ∃ v, wordStepAcc sel s = .data v ∧ t = advance 8 (setAcc v s) := by
  obtain ⟨v, hv, rfl⟩ := (map_data_iff _ _ _).1 h
  exact ⟨v, hv, rfl⟩

theorem byteStepMem_data (s t : State) (h : byteStepMem s = .data t) :
    ∃ b : Byte, s.memBytes s.curNat 1 = .data [b] ∧ t = advance 1 (setAcc (s1 s.acc32 b) s) := by
  obtain ⟨v, hv, rfl⟩ := (map_data_iff _ _ _).1 h
  obtain ⟨bs, hbs, rfl⟩ := (memRead_data_iff ..).1 hv
  obtain ⟨b, rfl⟩ := List.length_eq_one_iff.1 (memBytes_length _ _ _ _ hbs)
  refine ⟨b, hbs, ?_⟩
  simp [littleEndian]

/-- One byte read at `CUR` is folded and `CUR` advanced by 1. -/
theorem byteStepMem_of_data (s : State) (b : Byte) (h : s.memBytes s.curNat 1 = .data [b]) :
    byteStepMem s = .data (advance 1 (setAcc (s1 s.acc32 b) s)) := by
  simp [byteStepMem, State.memRead, h, ReadResult.map, littleEndian]

/-- Where consuming `n` bytes leaves the cursor, within the address space. -/
theorem advance_setAcc_curNat (s : State) (v : Word) (n : Nat) (hw : s.params.addrW ≤ 64)
    (h : s.curNat + n ≤ 2 ^ s.params.addrW) : (advance n (setAcc v s)).curNat = s.curNat + n := by
  simp only [State.curNat, advance_cur, setAcc_params, setAcc_cur]
  exact fitPosition_toNat _ _ hw h

/-- Consuming bytes changes nothing that a read gets. -/
theorem advance_setAcc_memBytes (s : State) (v : Word) (k a n : Nat) :
    (advance k (setAcc v s)).memBytes a n = s.memBytes a n := by
  have : ∀ a, (advance k (setAcc v s)).busBytes a n = s.busBytes a n := by
    induction n with
    | zero => intro a; rfl
    | succ n ih => intro a; simp only [State.busBytes, ih]; rfl
  unfold State.memBytes
  rw [this]
  rfl

/-- What the engine's turn can do: the micro-steps that leave a phase, those that consume bytes, the final one,
and the abort. -/
theorem microStep_next (s t : State) (h : microStep s = .next t) :
    (s.phase = .idle ∧ t = s) ∨
    (s.phase ≠ .idle ∧ s.phase ≠ .final ∧ t = abort s) ∨
    (s.phase = .batch ∧ ∃ bytes, s.memBytes s.curNat (batchPrefix s) = .data bytes ∧
      t = setPhase
        (if (advance (batchPrefix s) s).curNat = s.endNat then .final else afterBatch s.params)
        (advance (batchPrefix s) (setAcc (batchCRC s.acc32 bytes) s))) ∨
    (s.phase = .align ∧ (s.curNat % 4 = 0 ∨ s.curNat = s.endNat) ∧ t = setPhase .g16 s) ∨
    (s.phase = .g16 ∧ s.remaining < 16 ∧ t = setPhase .g8 s) ∨
    (s.phase = .g8 ∧ s.remaining < 8 ∧ t = setPhase .tail s) ∨
    (s.phase = .tail ∧ s.curNat = s.endNat ∧ t = setPhase .final s) ∨
    ((s.phase = .align ∧ ¬ (s.curNat % 4 = 0 ∨ s.curNat = s.endNat) ∨ s.phase = .tail ∧ s.curNat ≠ s.endNat) ∧
      ∃ b : Byte, s.memBytes s.curNat 1 = .data [b] ∧ t = advance 1 (setAcc (s1 s.acc32 b) s)) ∨
    (s.phase = .g16 ∧ 16 ≤ s.remaining ∧ ∃ v w,
      wordStepAcc s.capl.sel s = .data v ∧
      wordStepAcc s.capl.sel (advance 8 (setAcc v s)) = .data w ∧
      t = advance 8 (setAcc w (advance 8 (setAcc v s)))) ∨
    (s.phase = .g8 ∧ 8 ≤ s.remaining ∧ ∃ v,
      wordStepAcc s.capl.sel s = .data v ∧ t = advance 8 (setAcc v s)) ∨
    (s.phase = .final ∧ t = setPhase .idle (setDone (setBusy false (writeResult s)))) := by
  unfold microStep at h
  cases hp : s.phase <;> simp only [hp] at h
  case idle => simp at h; simp [h]
  case batch =>
    rcases finishReads_next _ _ _ h with h | ⟨_, rfl⟩
    · obtain ⟨bytes, hb, rfl⟩ := (map_data_iff _ _ _).1 h
      refine .inr (.inr (.inl ⟨rfl, bytes, hb, rfl⟩))
    · simp
  case align =>
    unfold microAlign at h
    split at h
    · rename_i hc; simp at h; simp [hc, ← h]
    · rename_i hc
      rcases finishReads_next _ _ _ h with h | ⟨_, rfl⟩
      · obtain ⟨b, hb, rfl⟩ := byteStepMem_data _ _ h
        exact .inr (.inr (.inr (.inr (.inr (.inr (.inr (.inl ⟨.inl ⟨rfl, hc⟩, b, hb, rfl⟩)))))))
      · simp
  case g16 =>
    unfold microG16 at h
    split at h
    · rename_i hc
      rcases finishReads_next _ _ _ h with h | ⟨_, rfl⟩
      · obtain ⟨u, hu, hw⟩ := (andThen_data_iff _ _ _).1 h
        obtain ⟨v, hv, rfl⟩ := wordStepMem_data _ _ _ hu
        obtain ⟨w, hw2, rfl⟩ := wordStepMem_data _ _ _ hw
        exact .inr (.inr (.inr (.inr (.inr (.inr (.inr (.inr (.inl ⟨rfl, hc, v, w, hv, hw2, rfl⟩))))))))
      · simp
    · rename_i hc; simp at h; simp [← h]; omega
  case g8 =>
    unfold microG8 at h
    split at h
    · rename_i hc
      rcases finishReads_next _ _ _ h with h | ⟨_, rfl⟩
      · obtain ⟨v, hv, rfl⟩ := wordStepMem_data _ _ _ h
        exact .inr (.inr (.inr (.inr (.inr (.inr (.inr (.inr (.inr (.inl ⟨rfl, hc, v, hv, rfl⟩)))))))))
      · simp
    · rename_i hc; simp at h; simp [← h]; omega
  case tail =>
    unfold microTail at h
    split at h
    · rename_i hc
      rcases finishReads_next _ _ _ h with h | ⟨_, rfl⟩
      · obtain ⟨b, hb, rfl⟩ := byteStepMem_data _ _ h
        exact .inr (.inr (.inr (.inr (.inr (.inr (.inr (.inl ⟨.inr ⟨rfl, hc⟩, b, hb, rfl⟩)))))))
      · simp
    · rename_i hc; simp at h hc; simp [← h, hc]
  case final => simp [microFinal] at h; simp [← h]

/-! ### Stores -/

/-- What a store into the buffer memory can do. -/
theorem storeByte_next (a : Nat) (b : Byte) (s t : State) (h : storeByte a b s = .next t) :
    a < 2 ^ s.params.addrW ∧ sideEffectAt s.params a = false ∧
    ((s.status.busy = true ∧ s.addr.toNat ≤ a ∧ a < s.addr.toNat + s.len.toNat ∧
        t = { s with
          mem := Memory.insert s.mem a b
          touched := if a ∈ s.touched then s.touched else a :: s.touched
          acc := if a < s.curNat then zext64 (Config.freeAcc s.draws) else s.acc
          draws := s.draws + 1 }) ∨
     (¬ (s.status.busy = true ∧ s.addr.toNat ≤ a ∧ a < s.addr.toNat + s.len.toNat) ∧
        t = { s with mem := Memory.insert s.mem a b })) := by
  unfold storeByte at h
  split at h
  · simp at h
  · rename_i h1
    split at h
    · simp at h
    · rename_i h2
      refine ⟨by omega, by simpa using h2, ?_⟩
      simp only at h
      split at h
      · rename_i h3
        simp only [Host.Outcome.next.injEq] at h
        exact .inl ⟨h3.1, h3.2.1, h3.2.2, h.symm⟩
      · rename_i h3
        simp only [Host.Outcome.next.injEq] at h
        exact .inr ⟨h3, h.symm⟩

end Sys2Proof.Machine
end

