-- ==== Sys2Proof/Laws/PerInstr.lean ====
section
/-! SUPPORT. Statements made per command: the family `Shape`, what the word of a command looks like. -/
namespace Sys2Proof.Laws.Shape

/-- The word of the command has `RSV = 0` and, but for `STEP1`, `IMM8 = 0` (30_encoding.md R91, R93), and its
mnemonic is a source line that stands for it (R98). -/
def Statement (i : Instr) : Prop :=
  rsvField (encode i) = 0#16 ∧ (opcField (encode i) ≠ step1Opcode → immField (encode i) = 0#8) ∧
    ∃ imm, Source.instr? ⟨i.mnemonic, imm⟩ = some i

/-- The two field clauses hold whatever the command. -/
theorem fields (i : Instr) :
    rsvField (encode i) = 0#16 ∧ (opcField (encode i) ≠ step1Opcode → immField (encode i) = 0#8) := by
  obtain ⟨hr, hm, ho⟩ := fields_word (immOf i) (opcodeOf i)
  refine ⟨hr, ?_⟩
  rw [show encode i = 0#16 ++ immOf i ++ opcodeOf i from rfl, hm, ho]
  cases i <;> simp [immOf, opcodeOf]

theorem nop : Statement .nop := ⟨(fields _).1, (fields _).2, none, by decide⟩
theorem init : Statement .init := ⟨(fields _).1, (fields _).2, none, by decide⟩
theorem final : Statement .final := ⟨(fields _).1, (fields _).2, none, by decide⟩
theorem step1 (imm8 : Byte) : Statement (.step1 imm8) :=
  ⟨(fields _).1, (fields _).2, some imm8.toNat, by
    simp only [Source.instr?, Instr.mnemonic, imm8.isLt, and_self, if_true]
    simp⟩
theorem step4 : Statement .step4 := ⟨(fields _).1, (fields _).2, none, by decide⟩
theorem swstep : Statement .swstep := ⟨(fields _).1, (fields _).2, none, by decide⟩
theorem crc32cW : Statement .crc32cW := ⟨(fields _).1, (fields _).2, none, by decide⟩
theorem crc32cD : Statement .crc32cD := ⟨(fields _).1, (fields _).2, none, by decide⟩
theorem neonD : Statement .neonD := ⟨(fields _).1, (fields _).2, none, by decide⟩
theorem wstep : Statement .wstep := ⟨(fields _).1, (fields _).2, none, by decide⟩
theorem extend : Statement .extend := ⟨(fields _).1, (fields _).2, none, by decide⟩

end Sys2Proof.Laws.Shape
end

