-- ==== Sys2Proof/Laws/Step.lean ====
section
/-! SUPPORT. What a step, a host write and a host read can do. -/
namespace Sys2Proof.Machine

@[simp] theorem outcome_next_inj (s t : State) :
    (Host.Outcome.next s : Host.Outcome State Fault Refusal) = .next t ↔ s = t := by simp

theorem step_nil (s : State) (h : s.inputs = []) : step s = microStep s := by
  simp [step, nextEvent, h]

theorem step_cons (s : State) (x : Input) (rest : List Input) (h : s.inputs = x :: rest) :
    step s = handleInput x { s with inputs := rest } := by
  simp [step, nextEvent, h]

theorem placeOf_offset (p : Config.Params) (off : Nat) :
    placeOf p (p.regBase + off) =
      if off % 4 ≠ 0 then .misaligned
      else match registerMap.lookup off with
        | some r => .register r
        | none => .reserved := by
  simp [placeOf] <;> rfl

/-- The window holds each register at its offset. -/
theorem placeOf_register (p : Config.Params) (r : Reg) :
    placeOf p (p.regBase + offsetOf r) = .register r := by
  rw [placeOf_offset]; cases r <;> rfl

/-- `CMD` stands at the base of the window. -/
@[simp] theorem placeOf_base (p : Config.Params) : placeOf p p.regBase = .register .cmd :=
  placeOf_register p .cmd

theorem placeOf_reserved (p : Config.Params) (off : Nat) (h : 0x40 ≤ off) (h4 : off % 4 = 0) :
    placeOf p (p.regBase + off) = .reserved := by
  rw [placeOf_offset, if_neg (by simpa using h4)]
  have : registerMap.lookup off = none := by
    have hk : ∀ k, k < 0x40 → (off == k) = false := fun k hk => by simp; omega
    simp [registerMap, List.lookup_cons, hk]
  rw [this]

theorem writeCmd_next (w : Word) (s t : State) (h : writeCmd w s = .next t) :
    (s.status.busy = true ∧ t = raiseError .busy s) ∨
    (s.status.busy = false ∧ (∃ e, decodeWord w = .error e) ∧ t = raiseError .illegal (clearDone s)) ∨
    (s.status.busy = false ∧ ∃ i, decodeWord w = .ok i ∧ exec i s = .next t) := by
  unfold writeCmd at h
  cases hb : s.status.busy
  · cases hd : decodeWord w with
    | ok i => simp [hb, hd] at h; simp [h]
    | error e => simp [hb, hd, rejectWord] at h; simp [← h]
  · simp [hb] at h; simp [← h]

/-- What a 32-bit host write can do. -/
theorem hostWrite_next (addr : Nat) (v : Word) (s t : State) (h : hostWrite addr v s = .next t) :
    (placeOf s.params addr = .register .cmd ∧ writeCmd v s = .next t) ∨
    (∃ r, r ≠ .cmd ∧ placeOf s.params addr = .register r ∧ t = writeReg r v s) ∨
    (placeOf s.params addr = .reserved ∧ t = s) := by
  unfold hostWrite at h
  cases hp : placeOf s.params addr with
  | register r =>
    cases r <;> simp [hp] at h <;> first
      | exact .inl ⟨rfl, h⟩
      | exact .inr (.inl ⟨_, by simp, rfl, h.symm⟩)
  | reserved => simp [hp] at h; simp [h]
  | misaligned => simp [hp] at h
  | outside => simp [hp] at h

/-- What a 32-bit host read can do. -/
theorem hostRead_next (addr : Nat) (s t : State) (h : hostRead addr s = .next t) :
    ∃ v d, t = { deliver v s with draws := d } := by
  unfold hostRead at h
  split at h
  · simp only [readReg, outcome_next_inj] at h
    split at h
    · exact ⟨_, _, h.symm⟩
    · exact ⟨_, s.draws, h.symm⟩
  · simp at h; exact ⟨_, s.draws, h.symm⟩
  · simp at h
  · simp at h

/-- What a register other than `CMD` does when it is written: the state changes in at most one register, or the
write is rejected. -/
inductive Written (s : State) : State → Prop where
  | ignored : Written s s
  | rejected : s.status.busy = true → Written s (raiseError .busy s)
  | status (v : Word) : Written s { s with status := s.status.write v }
  | cap (v : Word) : s.status.busy = false → Written s { s with cap := Cap.ofWord s.params v }
  | crcIn (v : Word) : s.status.busy = false → Written s { s with crcIn := v }
  | addr (v : Dword) : s.status.busy = false → Written s { s with addr := v }
  | len (v : Dword) : s.status.busy = false → Written s { s with len := v }
  | din (v : Dword) : s.status.busy = false → Written s { s with din := v }
  | acc (v : Word) : s.status.busy = false → Written s (setAcc v s)

theorem writeReg_written (r : Reg) (v : Word) (s : State) : Written s (writeReg r v s) := by
  unfold writeReg
  cases hb : s.status.busy
  · simp only [Bool.false_eq_true, false_and, if_false]
    cases r
    case cmd | accHi | result | curLo | curHi | feat => exact .ignored
    case status => exact .status v
    case cap => exact .cap v hb
    case crcIn => exact .crcIn v hb
    case addrLo | addrHi => exact .addr _ hb
    case lenLo | lenHi => exact .len _ hb
    case dinLo | dinHi => exact .din _ hb
    case accLo => exact .acc v hb
  · cases r
    case status => exact .status v
    case accHi | result | curLo | curHi | feat => exact .ignored
    all_goals exact .rejected hb

/-- What one read of a `POLL` does. -/
theorem hostPoll_eq (s : State) :
    hostPoll s = if s.status.busy
      then { deliver s.status.toWord s with inputs := .engine :: .poll :: s.inputs }
      else deliver s.status.toWord s := by
  simp [hostPoll, readReg, unspecifiedWhileBusy, regValue, deliver]

/-- What a step can do: the engine's turn, or one input. -/
theorem step_next (s t : State) (h : step s = .next t) :
    (∃ rest, (s.inputs = [] ∧ rest = [] ∨ s.inputs = .engine :: rest) ∧
      microStep { s with inputs := rest } = .next t) ∨
    (∃ addr v rest, s.inputs = .write addr v :: rest ∧ hostWrite addr v { s with inputs := rest } = .next t) ∨
    (∃ addr rest, s.inputs = .read addr :: rest ∧ hostRead addr { s with inputs := rest } = .next t) ∨
    (∃ rest, s.inputs = .poll :: rest ∧ t = hostPoll { s with inputs := rest }) ∨
    (∃ a b rest, s.inputs = .store a b :: rest ∧ storeByte a b { s with inputs := rest } = .next t) ∨
    (∃ rest, s.inputs = .reset :: rest ∧ t = resetEngine { s with inputs := rest }) := by
  cases hi : s.inputs with
  | nil =>
    rw [step_nil s hi] at h
    refine .inl ⟨[], .inl ⟨rfl, rfl⟩, ?_⟩
    have : ({ s with inputs := [] } : State) = s := by rw [← hi]
    rw [this]; exact h
  | cons x rest =>
    rw [step_cons s x rest hi] at h
    cases x <;> simp only [handleInput] at h
    case write addr v => exact .inr (.inl ⟨_, _, rest, rfl, h⟩)
    case read addr => exact .inr (.inr (.inl ⟨_, rest, rfl, h⟩))
    case poll => simp at h; exact .inr (.inr (.inr (.inl ⟨rest, rfl, h.symm⟩)))
    case otherAccess => simp at h
    case store a b => exact .inr (.inr (.inr (.inr (.inl ⟨_, _, rest, rfl, h⟩))))
    case engine => exact .inl ⟨rest, .inr rfl, h⟩
    case reset => simp at h; exact .inr (.inr (.inr (.inr (.inr ⟨rest, rfl, h.symm⟩))))

end Sys2Proof.Machine
end

