-- ==== Sys2Proof/Tests/Slice0.lean ====
section
/-! SUPPORT. The model's own tests: ill-formed terms are refused, words written out from the encoding decode,
the tables are those that the spec lists, the spec's own vectors come out, and for each statement with hypotheses
a state and operands that meet them. -/
namespace Sys2Proof.Tests
open Machine

/- The tests run the kernel: one after another, not all at once. -/
set_option Elab.async false

/-! ### WellFormed: each check refuses an ill-formed term -/

theorem test_wf_step1_too_large : Source.wf ⟨"STEP1", some 256⟩ = false := by decide
theorem test_wf_step1_without_operand : Source.wf ⟨"STEP1", none⟩ = false := by decide
theorem test_wf_operand_not_taken : Source.wf ⟨"NOP", some 0⟩ = false := by decide
theorem test_wf_unknown_mnemonic : Source.wf ⟨"CRC32C", none⟩ = false := by decide
theorem test_wf_step1_largest : Source.instr? ⟨"STEP1", some 255⟩ = some (.step1 0xFF#8) := by decide
theorem test_wf_addrW_zero : ¬ Config.Params.wf { Config.sample with addrW := 0 } := by decide
theorem test_wf_addrW_too_large : ¬ Config.Params.wf { Config.sample with addrW := 65 } := by decide
theorem test_wf_chunk_zero : ¬ Config.Params.wf { Config.sample with batchChunk := 0 } := by decide
theorem test_wf_chunk_no_multiple : ¬ Config.Params.wf { Config.sample with batchChunk := 24 } := by decide
theorem test_wf_sample : Config.Params.wf Config.sample := by decide

/-! ### Decode: words written out bit by bit (30_encoding.md R91, R93: `RSV`, `IMM8`, `OPC`) -/

theorem test_decode_nop : decodeWord 0b0000000000000000_00000000_00000000#32 = .ok .nop := by decide
theorem test_decode_init : decodeWord 0b0000000000000000_00000000_00000001#32 = .ok .init := by decide
theorem test_decode_final : decodeWord 0b0000000000000000_00000000_00000010#32 = .ok .final := by decide
theorem test_decode_step1 :
    decodeWord 0b0000000000000000_00110001_00010000#32 = .ok (.step1 0x31#8) := by decide
theorem test_decode_step1_top :
    decodeWord 0b0000000000000000_10000000_00010000#32 = .ok (.step1 0x80#8) := by decide
theorem test_decode_step4 : decodeWord 0b0000000000000000_00000000_00010001#32 = .ok .step4 := by decide
theorem test_decode_swstep : decodeWord 0b0000000000000000_00000000_00010010#32 = .ok .swstep := by decide
theorem test_decode_crc32cW : decodeWord 0b0000000000000000_00000000_00100000#32 = .ok .crc32cW := by decide
theorem test_decode_crc32cD : decodeWord 0b0000000000000000_00000000_00100001#32 = .ok .crc32cD := by decide
theorem test_decode_neonD : decodeWord 0b0000000000000000_00000000_00100010#32 = .ok .neonD := by decide
theorem test_decode_wstep : decodeWord 0b0000000000000000_00000000_00110000#32 = .ok .wstep := by decide
theorem test_decode_extend : decodeWord 0b0000000000000000_00000000_01000000#32 = .ok .extend := by decide

/-- 30_encoding.md R94: an opcode outside the map, a reserved bit, an immediate that the opcode does not take. -/
theorem test_decode_rejects :
    decodeWord 0x00000003#32 = .error .unknownOpcode ∧ decodeWord 0x00010010#32 = .error .reservedBits ∧
      decodeWord 0x00000111#32 = .error .strayImmediate ∧ decodeWord 0x80000000#32 = .error .reservedBits ∧
      decodeWord 0xFFFFFFFF#32 = .error .reservedBits := by decide

theorem test_decodeTableWord : decodeTableWord 32 0xFF10 = some (.step1 0xFF#8) ∧
    decodeTableWord 8 0x40 = some .extend ∧ decodeTableWord 32 0x41 = none := by decide

/-! ### The tables, entry by entry -/

/-- The contents of `T0` as the appendix of 40_table_lookup_datapath.md lists them. -/
def listing0 : List Nat :=
  [0x00000000, 0xF26B8303, 0xE13B70F7, 0x1350F3F4, 0xC79A971F, 0x35F1141C, 0x26A1E7E8, 0xD4CA64EB] ++
  [0x8AD958CF, 0x78B2DBCC, 0x6BE22838, 0x9989AB3B, 0x4D43CFD0, 0xBF284CD3, 0xAC78BF27, 0x5E133C24] ++
  [0x105EC76F, 0xE235446C, 0xF165B798, 0x030E349B, 0xD7C45070, 0x25AFD373, 0x36FF2087, 0xC494A384] ++
  [0x9A879FA0, 0x68EC1CA3, 0x7BBCEF57, 0x89D76C54, 0x5D1D08BF, 0xAF768BBC, 0xBC267848, 0x4E4DFB4B] ++
  [0x20BD8EDE, 0xD2D60DDD, 0xC186FE29, 0x33ED7D2A, 0xE72719C1, 0x154C9AC2, 0x061C6936, 0xF477EA35] ++
  [0xAA64D611, 0x580F5512, 0x4B5FA6E6, 0xB93425E5, 0x6DFE410E, 0x9F95C20D, 0x8CC531F9, 0x7EAEB2FA] ++
  [0x30E349B1, 0xC288CAB2, 0xD1D83946, 0x23B3BA45, 0xF779DEAE, 0x05125DAD, 0x1642AE59, 0xE4292D5A] ++
  [0xBA3A117E, 0x4851927D, 0x5B016189, 0xA96AE28A, 0x7DA08661, 0x8FCB0562, 0x9C9BF696, 0x6EF07595] ++
  [0x417B1DBC, 0xB3109EBF, 0xA0406D4B, 0x522BEE48, 0x86E18AA3, 0x748A09A0, 0x67DAFA54, 0x95B17957] ++
  [0xCBA24573, 0x39C9C670, 0x2A993584, 0xD8F2B687, 0x0C38D26C, 0xFE53516F, 0xED03A29B, 0x1F682198] ++
  [0x5125DAD3, 0xA34E59D0, 0xB01EAA24, 0x42752927, 0x96BF4DCC, 0x64D4CECF, 0x77843D3B, 0x85EFBE38] ++
  [0xDBFC821C, 0x2997011F, 0x3AC7F2EB, 0xC8AC71E8, 0x1C661503, 0xEE0D9600, 0xFD5D65F4, 0x0F36E6F7] ++
  [0x61C69362, 0x93AD1061, 0x80FDE395, 0x72966096, 0xA65C047D, 0x5437877E, 0x4767748A, 0xB50CF789] ++
  [0xEB1FCBAD, 0x197448AE, 0x0A24BB5A, 0xF84F3859, 0x2C855CB2, 0xDEEEDFB1, 0xCDBE2C45, 0x3FD5AF46] ++
  [0x7198540D, 0x83F3D70E, 0x90A324FA, 0x62C8A7F9, 0xB602C312, 0x44694011, 0x5739B3E5, 0xA55230E6] ++
  [0xFB410CC2, 0x092A8FC1, 0x1A7A7C35, 0xE811FF36, 0x3CDB9BDD, 0xCEB018DE, 0xDDE0EB2A, 0x2F8B6829] ++
  [0x82F63B78, 0x709DB87B, 0x63CD4B8F, 0x91A6C88C, 0x456CAC67, 0xB7072F64, 0xA457DC90, 0x563C5F93] ++
  [0x082F63B7, 0xFA44E0B4, 0xE9141340, 0x1B7F9043, 0xCFB5F4A8, 0x3DDE77AB, 0x2E8E845F, 0xDCE5075C] ++
  [0x92A8FC17, 0x60C37F14, 0x73938CE0, 0x81F80FE3, 0x55326B08, 0xA759E80B, 0xB4091BFF, 0x466298FC] ++
  [0x1871A4D8, 0xEA1A27DB, 0xF94AD42F, 0x0B21572C, 0xDFEB33C7, 0x2D80B0C4, 0x3ED04330, 0xCCBBC033] ++
  [0xA24BB5A6, 0x502036A5, 0x4370C551, 0xB11B4652, 0x65D122B9, 0x97BAA1BA, 0x84EA524E, 0x7681D14D] ++
  [0x2892ED69, 0xDAF96E6A, 0xC9A99D9E, 0x3BC21E9D, 0xEF087A76, 0x1D63F975, 0x0E330A81, 0xFC588982] ++
  [0xB21572C9, 0x407EF1CA, 0x532E023E, 0xA145813D, 0x758FE5D6, 0x87E466D5, 0x94B49521, 0x66DF1622] ++
  [0x38CC2A06, 0xCAA7A905, 0xD9F75AF1, 0x2B9CD9F2, 0xFF56BD19, 0x0D3D3E1A, 0x1E6DCDEE, 0xEC064EED] ++
  [0xC38D26C4, 0x31E6A5C7, 0x22B65633, 0xD0DDD530, 0x0417B1DB, 0xF67C32D8, 0xE52CC12C, 0x1747422F] ++
  [0x49547E0B, 0xBB3FFD08, 0xA86F0EFC, 0x5A048DFF, 0x8ECEE914, 0x7CA56A17, 0x6FF599E3, 0x9D9E1AE0] ++
  [0xD3D3E1AB, 0x21B862A8, 0x32E8915C, 0xC083125F, 0x144976B4, 0xE622F5B7, 0xF5720643, 0x07198540] ++
  [0x590AB964, 0xAB613A67, 0xB831C993, 0x4A5A4A90, 0x9E902E7B, 0x6CFBAD78, 0x7FAB5E8C, 0x8DC0DD8F] ++
  [0xE330A81A, 0x115B2B19, 0x020BD8ED, 0xF0605BEE, 0x24AA3F05, 0xD6C1BC06, 0xC5914FF2, 0x37FACCF1] ++
  [0x69E9F0D5, 0x9B8273D6, 0x88D28022, 0x7AB90321, 0xAE7367CA, 0x5C18E4C9, 0x4F48173D, 0xBD23943E] ++
  [0xF36E6F75, 0x0105EC76, 0x12551F82, 0xE03E9C81, 0x34F4F86A, 0xC69F7B69, 0xD5CF889D, 0x27A40B9E] ++
  [0x79B737BA, 0x8BDCB4B9, 0x988C474D, 0x6AE7C44E, 0xBE2DA0A5, 0x4C4623A6, 0x5F16D052, 0xAD7D5351]

theorem test_table_t0 : (List.range 256).map (fun b => (t0 (BitVec.ofNat 8 b)).toNat) = listing0 := by
  decide +kernel

/-- The contents of `T1` as the appendix of 40_table_lookup_datapath.md lists them. -/
def listing1 : List Nat :=
  [0x00000000, 0x13A29877, 0x274530EE, 0x34E7A899, 0x4E8A61DC, 0x5D28F9AB, 0x69CF5132, 0x7A6DC945] ++
  [0x9D14C3B8, 0x8EB65BCF, 0xBA51F356, 0xA9F36B21, 0xD39EA264, 0xC03C3A13, 0xF4DB928A, 0xE7790AFD] ++
  [0x3FC5F181, 0x2C6769F6, 0x1880C16F, 0x0B225918, 0x714F905D, 0x62ED082A, 0x560AA0B3, 0x45A838C4] ++
  [0xA2D13239, 0xB173AA4E, 0x859402D7, 0x96369AA0, 0xEC5B53E5, 0xFFF9CB92, 0xCB1E630B, 0xD8BCFB7C] ++
  [0x7F8BE302, 0x6C297B75, 0x58CED3EC, 0x4B6C4B9B, 0x310182DE, 0x22A31AA9, 0x1644B230, 0x05E62A47] ++
  [0xE29F20BA, 0xF13DB8CD, 0xC5DA1054, 0xD6788823, 0xAC154166, 0xBFB7D911, 0x8B507188, 0x98F2E9FF] ++
  [0x404E1283, 0x53EC8AF4, 0x670B226D, 0x74A9BA1A, 0x0EC4735F, 0x1D66EB28, 0x298143B1, 0x3A23DBC6] ++
  [0xDD5AD13B, 0xCEF8494C, 0xFA1FE1D5, 0xE9BD79A2, 0x93D0B0E7, 0x80722890, 0xB4958009, 0xA737187E] ++
  [0xFF17C604, 0xECB55E73, 0xD852F6EA, 0xCBF06E9D, 0xB19DA7D8, 0xA23F3FAF, 0x96D89736, 0x857A0F41] ++
  [0x620305BC, 0x71A19DCB, 0x45463552, 0x56E4AD25, 0x2C896460, 0x3F2BFC17, 0x0BCC548E, 0x186ECCF9] ++
  [0xC0D23785, 0xD370AFF2, 0xE797076B, 0xF4359F1C, 0x8E585659, 0x9DFACE2E, 0xA91D66B7, 0xBABFFEC0] ++
  [0x5DC6F43D, 0x4E646C4A, 0x7A83C4D3, 0x69215CA4, 0x134C95E1, 0x00EE0D96, 0x3409A50F, 0x27AB3D78] ++
  [0x809C2506, 0x933EBD71, 0xA7D915E8, 0xB47B8D9F, 0xCE1644DA, 0xDDB4DCAD, 0xE9537434, 0xFAF1EC43] ++
  [0x1D88E6BE, 0x0E2A7EC9, 0x3ACDD650, 0x296F4E27, 0x53028762, 0x40A01F15, 0x7447B78C, 0x67E52FFB] ++
  [0xBF59D487, 0xACFB4CF0, 0x981CE469, 0x8BBE7C1E, 0xF1D3B55B, 0xE2712D2C, 0xD69685B5, 0xC5341DC2] ++
  [0x224D173F, 0x31EF8F48, 0x050827D1, 0x16AABFA6, 0x6CC776E3, 0x7F65EE94, 0x4B82460D, 0x5820DE7A] ++
  [0xFBC3FAF9, 0xE861628E, 0xDC86CA17, 0xCF245260, 0xB5499B25, 0xA6EB0352, 0x920CABCB, 0x81AE33BC] ++
  [0x66D73941, 0x7575A136, 0x419209AF, 0x523091D8, 0x285D589D, 0x3BFFC0EA, 0x0F186873, 0x1CBAF004] ++
  [0xC4060B78, 0xD7A4930F, 0xE3433B96, 0xF0E1A3E1, 0x8A8C6AA4, 0x992EF2D3, 0xADC95A4A, 0xBE6BC23D] ++
  [0x5912C8C0, 0x4AB050B7, 0x7E57F82E, 0x6DF56059, 0x1798A91C, 0x043A316B, 0x30DD99F2, 0x237F0185] ++
  [0x844819FB, 0x97EA818C, 0xA30D2915, 0xB0AFB162, 0xCAC27827, 0xD960E050, 0xED8748C9, 0xFE25D0BE] ++
  [0x195CDA43, 0x0AFE4234, 0x3E19EAAD, 0x2DBB72DA, 0x57D6BB9F, 0x447423E8, 0x70938B71, 0x63311306] ++
  [0xBB8DE87A, 0xA82F700D, 0x9CC8D894, 0x8F6A40E3, 0xF50789A6, 0xE6A511D1, 0xD242B948, 0xC1E0213F] ++
  [0x26992BC2, 0x353BB3B5, 0x01DC1B2C, 0x127E835B, 0x68134A1E, 0x7BB1D269, 0x4F567AF0, 0x5CF4E287] ++
  [0x04D43CFD, 0x1776A48A, 0x23910C13, 0x30339464, 0x4A5E5D21, 0x59FCC556, 0x6D1B6DCF, 0x7EB9F5B8] ++
  [0x99C0FF45, 0x8A626732, 0xBE85CFAB, 0xAD2757DC, 0xD74A9E99, 0xC4E806EE, 0xF00FAE77, 0xE3AD3600] ++
  [0x3B11CD7C, 0x28B3550B, 0x1C54FD92, 0x0FF665E5, 0x759BACA0, 0x663934D7, 0x52DE9C4E, 0x417C0439] ++
  [0xA6050EC4, 0xB5A796B3, 0x81403E2A, 0x92E2A65D, 0xE88F6F18, 0xFB2DF76F, 0xCFCA5FF6, 0xDC68C781] ++
  [0x7B5FDFFF, 0x68FD4788, 0x5C1AEF11, 0x4FB87766, 0x35D5BE23, 0x26772654, 0x12908ECD, 0x013216BA] ++
  [0xE64B1C47, 0xF5E98430, 0xC10E2CA9, 0xD2ACB4DE, 0xA8C17D9B, 0xBB63E5EC, 0x8F844D75, 0x9C26D502] ++
  [0x449A2E7E, 0x5738B609, 0x63DF1E90, 0x707D86E7, 0x0A104FA2, 0x19B2D7D5, 0x2D557F4C, 0x3EF7E73B] ++
  [0xD98EEDC6, 0xCA2C75B1, 0xFECBDD28, 0xED69455F, 0x97048C1A, 0x84A6146D, 0xB041BCF4, 0xA3E32483]

theorem test_table_t1 : (List.range 256).map (fun b => (t1 (BitVec.ofNat 8 b)).toNat) = listing1 := by
  decide +kernel

/-- The contents of `T2` as the appendix of 40_table_lookup_datapath.md lists them. -/
def listing2 : List Nat :=
  [0x00000000, 0xA541927E, 0x4F6F520D, 0xEA2EC073, 0x9EDEA41A, 0x3B9F3664, 0xD1B1F617, 0x74F06469] ++
  [0x38513EC5, 0x9D10ACBB, 0x773E6CC8, 0xD27FFEB6, 0xA68F9ADF, 0x03CE08A1, 0xE9E0C8D2, 0x4CA15AAC] ++
  [0x70A27D8A, 0xD5E3EFF4, 0x3FCD2F87, 0x9A8CBDF9, 0xEE7CD990, 0x4B3D4BEE, 0xA1138B9D, 0x045219E3] ++
  [0x48F3434F, 0xEDB2D131, 0x079C1142, 0xA2DD833C, 0xD62DE755, 0x736C752B, 0x9942B558, 0x3C032726] ++
  [0xE144FB14, 0x4405696A, 0xAE2BA919, 0x0B6A3B67, 0x7F9A5F0E, 0xDADBCD70, 0x30F50D03, 0x95B49F7D] ++
  [0xD915C5D1, 0x7C5457AF, 0x967A97DC, 0x333B05A2, 0x47CB61CB, 0xE28AF3B5, 0x08A433C6, 0xADE5A1B8] ++
  [0x91E6869E, 0x34A714E0, 0xDE89D493, 0x7BC846ED, 0x0F382284, 0xAA79B0FA, 0x40577089, 0xE516E2F7] ++
  [0xA9B7B85B, 0x0CF62A25, 0xE6D8EA56, 0x43997828, 0x37691C41, 0x92288E3F, 0x78064E4C, 0xDD47DC32] ++
  [0xC76580D9, 0x622412A7, 0x880AD2D4, 0x2D4B40AA, 0x59BB24C3, 0xFCFAB6BD, 0x16D476CE, 0xB395E4B0] ++
  [0xFF34BE1C, 0x5A752C62, 0xB05BEC11, 0x151A7E6F, 0x61EA1A06, 0xC4AB8878, 0x2E85480B, 0x8BC4DA75] ++
  [0xB7C7FD53, 0x12866F2D, 0xF8A8AF5E, 0x5DE93D20, 0x29195949, 0x8C58CB37, 0x66760B44, 0xC337993A] ++
  [0x8F96C396, 0x2AD751E8, 0xC0F9919B, 0x65B803E5, 0x1148678C, 0xB409F5F2, 0x5E273581, 0xFB66A7FF] ++
  [0x26217BCD, 0x8360E9B3, 0x694E29C0, 0xCC0FBBBE, 0xB8FFDFD7, 0x1DBE4DA9, 0xF7908DDA, 0x52D11FA4] ++
  [0x1E704508, 0xBB31D776, 0x511F1705, 0xF45E857B, 0x80AEE112, 0x25EF736C, 0xCFC1B31F, 0x6A802161] ++
  [0x56830647, 0xF3C29439, 0x19EC544A, 0xBCADC634, 0xC85DA25D, 0x6D1C3023, 0x8732F050, 0x2273622E] ++
  [0x6ED23882, 0xCB93AAFC, 0x21BD6A8F, 0x84FCF8F1, 0xF00C9C98, 0x554D0EE6, 0xBF63CE95, 0x1A225CEB] ++
  [0x8B277743, 0x2E66E53D, 0xC448254E, 0x6109B730, 0x15F9D359, 0xB0B84127, 0x5A968154, 0xFFD7132A] ++
  [0xB3764986, 0x1637DBF8, 0xFC191B8B, 0x595889F5, 0x2DA8ED9C, 0x88E97FE2, 0x62C7BF91, 0xC7862DEF] ++
  [0xFB850AC9, 0x5EC498B7, 0xB4EA58C4, 0x11ABCABA, 0x655BAED3, 0xC01A3CAD, 0x2A34FCDE, 0x8F756EA0] ++
  [0xC3D4340C, 0x6695A672, 0x8CBB6601, 0x29FAF47F, 0x5D0A9016, 0xF84B0268, 0x1265C21B, 0xB7245065] ++
  [0x6A638C57, 0xCF221E29, 0x250CDE5A, 0x804D4C24, 0xF4BD284D, 0x51FCBA33, 0xBBD27A40, 0x1E93E83E] ++
  [0x5232B292, 0xF77320EC, 0x1D5DE09F, 0xB81C72E1, 0xCCEC1688, 0x69AD84F6, 0x83834485, 0x26C2D6FB] ++
  [0x1AC1F1DD, 0xBF8063A3, 0x55AEA3D0, 0xF0EF31AE, 0x841F55C7, 0x215EC7B9, 0xCB7007CA, 0x6E3195B4] ++
  [0x2290CF18, 0x87D15D66, 0x6DFF9D15, 0xC8BE0F6B, 0xBC4E6B02, 0x190FF97C, 0xF321390F, 0x5660AB71] ++
  [0x4C42F79A, 0xE90365E4, 0x032DA597, 0xA66C37E9, 0xD29C5380, 0x77DDC1FE, 0x9DF3018D, 0x38B293F3] ++
  [0x7413C95F, 0xD1525B21, 0x3B7C9B52, 0x9E3D092C, 0xEACD6D45, 0x4F8CFF3B, 0xA5A23F48, 0x00E3AD36] ++
  [0x3CE08A10, 0x99A1186E, 0x738FD81D, 0xD6CE4A63, 0xA23E2E0A, 0x077FBC74, 0xED517C07, 0x4810EE79] ++
  [0x04B1B4D5, 0xA1F026AB, 0x4BDEE6D8, 0xEE9F74A6, 0x9A6F10CF, 0x3F2E82B1, 0xD50042C2, 0x7041D0BC] ++
  [0xAD060C8E, 0x08479EF0, 0xE2695E83, 0x4728CCFD, 0x33D8A894, 0x96993AEA, 0x7CB7FA99, 0xD9F668E7] ++
  [0x9557324B, 0x3016A035, 0xDA386046, 0x7F79F238, 0x0B899651, 0xAEC8042F, 0x44E6C45C, 0xE1A75622] ++
  [0xDDA47104, 0x78E5E37A, 0x92CB2309, 0x378AB177, 0x437AD51E, 0xE63B4760, 0x0C158713, 0xA954156D] ++
  [0xE5F54FC1, 0x40B4DDBF, 0xAA9A1DCC, 0x0FDB8FB2, 0x7B2BEBDB, 0xDE6A79A5, 0x3444B9D6, 0x91052BA8]

theorem test_table_t2 : (List.range 256).map (fun b => (t2 (BitVec.ofNat 8 b)).toNat) = listing2 := by
  decide +kernel

/-- The contents of `T3` as the appendix of 40_table_lookup_datapath.md lists them. -/
def listing3 : List Nat :=
  [0x00000000, 0xDD45AAB8, 0xBF672381, 0x62228939, 0x7B2231F3, 0xA6679B4B, 0xC4451272, 0x1900B8CA] ++
  [0xF64463E6, 0x2B01C95E, 0x49234067, 0x9466EADF, 0x8D665215, 0x5023F8AD, 0x32017194, 0xEF44DB2C] ++
  [0xE964B13D, 0x34211B85, 0x560392BC, 0x8B463804, 0x924680CE, 0x4F032A76, 0x2D21A34F, 0xF06409F7] ++
  [0x1F20D2DB, 0xC2657863, 0xA047F15A, 0x7D025BE2, 0x6402E328, 0xB9474990, 0xDB65C0A9, 0x06206A11] ++
  [0xD725148B, 0x0A60BE33, 0x6842370A, 0xB5079DB2, 0xAC072578, 0x71428FC0, 0x136006F9, 0xCE25AC41] ++
  [0x2161776D, 0xFC24DDD5, 0x9E0654EC, 0x4343FE54, 0x5A43469E, 0x8706EC26, 0xE524651F, 0x3861CFA7] ++
  [0x3E41A5B6, 0xE3040F0E, 0x81268637, 0x5C632C8F, 0x45639445, 0x98263EFD, 0xFA04B7C4, 0x27411D7C] ++
  [0xC805C650, 0x15406CE8, 0x7762E5D1, 0xAA274F69, 0xB327F7A3, 0x6E625D1B, 0x0C40D422, 0xD1057E9A] ++
  [0xABA65FE7, 0x76E3F55F, 0x14C17C66, 0xC984D6DE, 0xD0846E14, 0x0DC1C4AC, 0x6FE34D95, 0xB2A6E72D] ++
  [0x5DE23C01, 0x80A796B9, 0xE2851F80, 0x3FC0B538, 0x26C00DF2, 0xFB85A74A, 0x99A72E73, 0x44E284CB] ++
  [0x42C2EEDA, 0x9F874462, 0xFDA5CD5B, 0x20E067E3, 0x39E0DF29, 0xE4A57591, 0x8687FCA8, 0x5BC25610] ++
  [0xB4868D3C, 0x69C32784, 0x0BE1AEBD, 0xD6A40405, 0xCFA4BCCF, 0x12E11677, 0x70C39F4E, 0xAD8635F6] ++
  [0x7C834B6C, 0xA1C6E1D4, 0xC3E468ED, 0x1EA1C255, 0x07A17A9F, 0xDAE4D027, 0xB8C6591E, 0x6583F3A6] ++
  [0x8AC7288A, 0x57828232, 0x35A00B0B, 0xE8E5A1B3, 0xF1E51979, 0x2CA0B3C1, 0x4E823AF8, 0x93C79040] ++
  [0x95E7FA51, 0x48A250E9, 0x2A80D9D0, 0xF7C57368, 0xEEC5CBA2, 0x3380611A, 0x51A2E823, 0x8CE7429B] ++
  [0x63A399B7, 0xBEE6330F, 0xDCC4BA36, 0x0181108E, 0x1881A844, 0xC5C402FC, 0xA7E68BC5, 0x7AA3217D] ++
  [0x52A0C93F, 0x8FE56387, 0xEDC7EABE, 0x30824006, 0x2982F8CC, 0xF4C75274, 0x96E5DB4D, 0x4BA071F5] ++
  [0xA4E4AAD9, 0x79A10061, 0x1B838958, 0xC6C623E0, 0xDFC69B2A, 0x02833192, 0x60A1B8AB, 0xBDE41213] ++
  [0xBBC47802, 0x6681D2BA, 0x04A35B83, 0xD9E6F13B, 0xC0E649F1, 0x1DA3E349, 0x7F816A70, 0xA2C4C0C8] ++
  [0x4D801BE4, 0x90C5B15C, 0xF2E73865, 0x2FA292DD, 0x36A22A17, 0xEBE780AF, 0x89C50996, 0x5480A32E] ++
  [0x8585DDB4, 0x58C0770C, 0x3AE2FE35, 0xE7A7548D, 0xFEA7EC47, 0x23E246FF, 0x41C0CFC6, 0x9C85657E] ++
  [0x73C1BE52, 0xAE8414EA, 0xCCA69DD3, 0x11E3376B, 0x08E38FA1, 0xD5A62519, 0xB784AC20, 0x6AC10698] ++
  [0x6CE16C89, 0xB1A4C631, 0xD3864F08, 0x0EC3E5B0, 0x17C35D7A, 0xCA86F7C2, 0xA8A47EFB, 0x75E1D443] ++
  [0x9AA50F6F, 0x47E0A5D7, 0x25C22CEE, 0xF8878656, 0xE1873E9C, 0x3CC29424, 0x5EE01D1D, 0x83A5B7A5] ++
  [0xF90696D8, 0x24433C60, 0x4661B559, 0x9B241FE1, 0x8224A72B, 0x5F610D93, 0x3D4384AA, 0xE0062E12] ++
  [0x0F42F53E, 0xD2075F86, 0xB025D6BF, 0x6D607C07, 0x7460C4CD, 0xA9256E75, 0xCB07E74C, 0x16424DF4] ++
  [0x106227E5, 0xCD278D5D, 0xAF050464, 0x7240AEDC, 0x6B401616, 0xB605BCAE, 0xD4273597, 0x09629F2F] ++
  [0xE6264403, 0x3B63EEBB, 0x59416782, 0x8404CD3A, 0x9D0475F0, 0x4041DF48, 0x22635671, 0xFF26FCC9] ++
  [0x2E238253, 0xF36628EB, 0x9144A1D2, 0x4C010B6A, 0x5501B3A0, 0x88441918, 0xEA669021, 0x37233A99] ++
  [0xD867E1B5, 0x05224B0D, 0x6700C234, 0xBA45688C, 0xA345D046, 0x7E007AFE, 0x1C22F3C7, 0xC167597F] ++
  [0xC747336E, 0x1A0299D6, 0x782010EF, 0xA565BA57, 0xBC65029D, 0x6120A825, 0x0302211C, 0xDE478BA4] ++
  [0x31035088, 0xEC46FA30, 0x8E647309, 0x5321D9B1, 0x4A21617B, 0x9764CBC3, 0xF54642FA, 0x2803E842]

theorem test_table_t3 : (List.range 256).map (fun b => (t3 (BitVec.ofNat 8 b)).toNat) = listing3 := by
  decide +kernel

/-! ### The commands, on the vectors of 95_test_vectors.md sections 2 and 3 -/

/-- An idle engine after reset with these registers. -/
def idle (acc din : Dword) : State := { State.reset with acc := acc, din := din }

/-- What a step leaves in `ACC` and `STATUS`, or nothing where it stops. -/
def seen : Host.Outcome State Fault Refusal → Option (Dword × Word)
  | .next t => some (t.acc, t.status.toWord)
  | .fault _ => none
  | .refused _ => none

/-- What a step leaves in `RESULT` and `STATUS`. -/
def finished : Host.Outcome State Fault Refusal → Option (Word × Word)
  | .next t => some (t.result, t.status.toWord)
  | .fault _ => none
  | .refused _ => none

/-- What a step leaves in `PHASE`, `CUR` and `ACC`. -/
def moved : Host.Outcome State Fault Refusal → Option (Phase × Nat × Dword)
  | .next t => some (t.phase, t.curNat, t.acc)
  | .fault _ => none
  | .refused _ => none

theorem test_nop : seen (exec .nop (idle 0x5#64 0)) = some (0x5#64, 2#32) := by decide
theorem test_nop_clears_no_error : seen (exec .nop { idle 0 0 with status := ⟨false, false, true, 4#4⟩ }) =
    some (0#64, 0x46#32) := by decide
theorem test_init : seen (exec .init { idle 0 0 with crcIn := 0xE3069283#32 }) =
    some (0x1CF96D7C#64, 2#32) := by decide
theorem test_init_zero : seen (exec .init (idle 0 0)) = some (0xFFFFFFFF#64, 2#32) := by decide
theorem test_final : finished (exec .final (idle 0x1CF96D7C#64 0)) = some (0xE3069283#32, 2#32) := by decide
theorem test_final_keeps_acc : seen (exec .final (idle 0x1CF96D7C#64 0)) = some (0x1CF96D7C#64, 2#32) := by
  decide
theorem test_step1 : seen (exec (.step1 0x31#8) (idle 0xFFFFFFFF#64 0)) = some (0x6F0A661C#64, 2#32) := by
  decide
theorem test_step1_high_bit : seen (exec (.step1 0#8) (idle 0x80000000#64 0)) = some (0x00800000#64, 2#32) := by
  decide
theorem test_step4 : seen (exec .step4 (idle 0xFFFFFFFF#64 0x9999999934333231#64)) =
    some (0x09C50B11#64, 2#32) := by decide +kernel
theorem test_step4_mixed : seen (exec .step4 (idle 0xDEADBEEF#64 0x01020304#64)) =
    some (0x4DBB5F79#64, 2#32) := by decide +kernel
theorem test_swstep : seen (exec .swstep (idle 0xFFFFFFFF#64 0x3837363534333231#64)) =
    some (0x9F787F65#64, 2#32) := by decide +kernel
theorem test_swstep_order : seen (exec .swstep (idle 0x12345678#64 0x0000000012345678#64)) =
    some (0#64, 2#32) := by decide +kernel
theorem test_crc32cW : seen (exec .crc32cW (idle 0#64 0x1#64)) = some (0xDD45AAB8#64, 2#32) := by
  decide +kernel
theorem test_crc32cW_absent :
    seen (exec .crc32cW { idle 0xFFFFFFFF#64 0 with params := { Config.sample with hw4 := false } }) =
      some (0xFFFFFFFF#64, 0x24#32) := by decide +kernel
theorem test_crc32cD : seen (exec .crc32cD (idle 0x1CF96D7C#64 0x0123456789ABCDEF#64)) =
    some (0xAF28B6F6#64, 2#32) := by decide +kernel
theorem test_crc32cD_absent :
    seen (exec .crc32cD { idle 0xFFFFFFFF#64 0 with params := { Config.sample with hw8 := false } }) =
      some (0xFFFFFFFF#64, 0x24#32) := by decide +kernel
theorem test_neonD : seen (exec .neonD (idle 0#64 0xFFFFFFFFFFFFFFFF#64)) = some (0xC44FF94D#64, 2#32) := by
  decide +kernel
theorem test_neonD_absent :
    seen (exec .neonD { idle 0xFFFFFFFF#64 0 with params := { Config.sample with neon := false } }) =
      some (0xFFFFFFFF#64, 0x24#32) := by decide +kernel
theorem test_wstep_hw4 :
    seen (exec .wstep { idle 0xFFFFFFFF#64 0x3837363534333231#64 with cap := ⟨.hw4, false⟩ }) =
      some (0x9F787F65#64, 2#32) := by decide +kernel
theorem test_wstep_neon :
    seen (exec .wstep { idle 0xFFFFFFFF#64 0#64 with cap := ⟨.neon, true⟩ }) =
      some (0x73D74D75#64, 2#32) := by decide +kernel

/-! ### `EXTEND`: the trace of 95_test_vectors.md section 4, single steps -/

/-- The nine bytes "123456789" at 0x1001. -/
def digits : List Host.Cell :=
  [(0x1001, 0x31#8), (0x1002, 0x32#8), (0x1003, 0x33#8), (0x1004, 0x34#8), (0x1005, 0x35#8), (0x1006, 0x36#8),
   (0x1007, 0x37#8), (0x1008, 0x38#8), (0x1009, 0x39#8)]

/-- The start of that trace: `CRC_IN = 0`, `ADDR = 0x1001`, `LEN = 9`, `CAP = 2`. -/
def start : State :=
  { State.reset with mem := digits, addr := 0x1001#64, len := 9#64, cap := ⟨.hw8, false⟩ }

/-- A point of that trace. -/
def tracePoint (p : Phase) (cur : Nat) (acc : Dword) : State :=
  { start with
    status := ⟨true, false, false, 0#4⟩, capl := ⟨.hw8, false⟩, endPos := 0x100A#65, phase := p
    cur := BitVec.ofNat 65 cur, acc := acc }

theorem test_extend_accepted : moved (exec .extend start) = some (.align, 0x1001, 0xFFFFFFFF#64) := by decide
theorem test_extend_range :
    seen (exec .extend { start with addr := 0xFFFFFFFFFFFFFFF8#64, len := 16#64 }) = some (0#64, 0x44#32) := by
  decide +kernel
theorem test_align_byte : moved (step (tracePoint .align 0x1001 0xFFFFFFFF#64)) =
    some (.align, 0x1002, 0x6F0A661C#64) := by decide +kernel
theorem test_align_exit : moved (step (tracePoint .align 0x1004 0xEF84D04D#64)) =
    some (.g16, 0x1004, 0xEF84D04D#64) := by decide +kernel
theorem test_tail_byte : moved (step (tracePoint .tail 0x1009 0x9F787F65#64)) =
    some (.tail, 0x100A, 0x1CF96D7C#64) := by decide +kernel
theorem test_final_step : finished (step (tracePoint .final 0x100A 0x1CF96D7C#64)) =
    some (0xE3069283#32, 2#32) := by decide +kernel
/-- The word step of phase G8 on "12345678" at 0x1001: the last row but one of the trace. -/
theorem test_g8_word : moved (step (tracePoint .g8 0x1001 0xFFFFFFFF#64)) =
    some (.g8, 0x1009, 0x9F787F65#64) := by decide +kernel
/-- A read with no byte behind it aborts with BUSERR (60_exceptions.md R235, R238). -/
theorem test_bus_error : finished (step { tracePoint .tail 0x1009 0 with mem := [] }) =
    some (0#32, 0x54#32) := by decide +kernel

/-! ### The register window -/

/-- The reads of the host after some steps, newest first. -/
def readsAfter (k : Nat) (s : State) : Option (List Word) :=
  match Sys2Proof.core.run k s with
  | .next t => some t.reads
  | .fault _ => none
  | .refused _ => none

/-- `FEAT` of 95_test_vectors.md section 3: HW8 absent. -/
theorem test_feat : featWord { Config.sample with hw8 := false } = 0x1B#32 := by decide
/-- `CAP` is write-any-read-legal: 95_test_vectors.md section 3. -/
theorem test_cap_absent :
    Cap.ofWord { Config.sample with hw4 := false } 1#32 = ⟨.sw, false⟩ := by decide
theorem test_setcap : setcap Config.sample 3#32 1#32 = [.write 0x08 7#32] := by decide
theorem test_setbuf : setbuf Config.sample 0x100000002#64 0x300000004#64 =
    [.write 0x10 2#32, .write 0x14 1#32, .write 0x18 4#32, .write 0x1C 3#32] := by decide
theorem test_write_read_addr_hi :
    readsAfter 2 { State.reset with inputs := [wr Config.sample .addrHi 7#32, rd Config.sample .addrHi] } =
      some [7#32] := by decide +kernel
/-- An engine that is busy keeps its operands and records BUSY (10_state.md R39). -/
theorem test_write_while_busy :
    readsAfter 3 { tracePoint .g16 0x1004 0 with
      inputs := [wr Config.sample .lenLo 0#32, rd Config.sample .lenLo, rd Config.sample .status] } =
      some [0x35#32, 9#32] := by decide +kernel

/-! ### Witnesses: for each statement with hypotheses, states and operands that meet them -/

/-- The bytes 00 to 27 (hexadecimal) at 0x2000. -/
def buffer : List Host.Cell := (List.range 40).map (fun i => (0x2000 + i, BitVec.ofNat 8 i))

/-- Parameters with a low threshold of the batch unit. -/
def small : Config.Params := { Config.sample with batchMin := 16 }

/-- An `EXTEND` over `len` bytes at `addr` in the phase `p` at `cur`. -/
def extending (p : Phase) (addr len cur : Nat) (mem : List Host.Cell) : State :=
  { State.resetOf small with
    status := ⟨true, false, false, 0#4⟩, cap := ⟨.hw8, true⟩, capl := ⟨.hw8, true⟩
    addr := BitVec.ofNat 64 addr, len := BitVec.ofNat 64 len, cur := BitVec.ofNat 65 cur
    endPos := BitVec.ofNat 65 (addr + len), phase := p, mem := mem }

/-- The phases with a read ahead of them, and the final one. -/
def inBatch : State := extending .batch 0x2000 40 0x2000 buffer
def inAlign : State := extending .align 0x2001 39 0x2001 buffer
def inG16 : State := extending .g16 0x2000 40 0x2010 buffer
def inG8 : State := extending .g8 0x2000 40 0x2020 buffer
def inTail : State := extending .tail 0x2000 40 0x2027 buffer
def inFinal : State := extending .final 0x2000 40 0x2028 buffer

theorem inv_inBatch : Inv inBatch := by constructor <;> decide +kernel
theorem inv_inAlign : Inv inAlign := by constructor <;> decide +kernel
theorem inv_inG16 : Inv inG16 := by constructor <;> decide +kernel
theorem inv_inG8 : Inv inG8 := by constructor <;> decide +kernel
theorem inv_inTail : Inv inTail := by constructor <;> decide +kernel
theorem inv_inFinal : Inv inFinal := by constructor <;> decide +kernel
theorem inv_reset : Inv State.reset := by constructor <;> decide +kernel

/-- The next input of a state. -/
def withInput (x : Input) (s : State) : State := { s with inputs := [x] }

theorem inv_withInput (x : Input) (s : State) (h : Inv s) : Inv (withInput x s) :=
  ⟨h.1, h.2, h.3, h.4, h.5, h.6, h.7, h.8, h.9, h.10, h.11, h.12, h.13, h.14, h.15, h.16, h.17, h.18, h.19⟩

/-- A step that is known to answer with a next state. -/
theorem next_of_isSome {s : State} (h : (seen (step s)).isSome = true) : ∃ t, step s = .next t := by
  cases hs : step s with
  | next t => exact ⟨t, rfl⟩
  | fault r => simp [hs, seen] at h
  | refused r => simp [hs, seen] at h

/-- A command that is known to answer with a next state. -/
theorem exec_next_of_isSome {i : Instr} {s : State} (h : (seen (exec i s)).isSome = true) :
    ∃ t, exec i s = .next t := by
  cases hs : exec i s with
  | next t => exact ⟨t, rfl⟩
  | fault r => simp [hs, seen] at h
  | refused r => simp [hs, seen] at h

theorem not_command_3 : ¬ IsCommandWord 3#32 := by unfold IsCommandWord; decide
theorem not_command_rsv : ¬ IsCommandWord 0x00010010#32 := by unfold IsCommandWord; decide
theorem not_command_imm : ¬ IsCommandWord 0x00000111#32 := by unfold IsCommandWord; decide

/-- 30_encoding.md R98: the poll reads 1, the engine runs its final micro-step, the poll reads 2. -/
theorem test_poll : readsAfter 3 (withInput .poll inFinal) = some [2#32, 1#32] := by decide +kernel

theorem witness_IllegalWordOnlyRecordsIllegal :
    (withInput (.write 0 3#32) State.reset).inputs = .write State.reset.params.regBase 3#32 :: [] ∧
      (withInput (.write 0 3#32) State.reset).status.busy = false ∧ ¬ IsCommandWord 3#32 ∧
      ¬ IsCommandWord 0x00010010#32 ∧ ¬ IsCommandWord 0x00000111#32 :=
  ⟨rfl, rfl, not_command_3, not_command_rsv, not_command_imm⟩

theorem witness_StepRunsDecodedCommand :
    (withInput (.write 0 0xFF10#32) State.reset).inputs = .write State.reset.params.regBase 0xFF10#32 :: [] ∧
      decodeWord 0xFF10#32 = .ok (.step1 0xFF#8) := ⟨rfl, by decide⟩

theorem witness_EngineTakesItsTurn :
    State.reset.inputs = [] ∧ State.reset.phase = .idle ∧
      (withInput .engine inG16).inputs = .engine :: [] ∧ inG16.inputs = [] := ⟨rfl, rfl, rfl, rfl⟩

/-- Idle, busy, with `STATUS = 0`: `NOP`, and the first clauses of every command. -/
theorem witness_NopOnlySetsDone :
    State.reset.status.busy = false ∧ inTail.status.busy = true ∧ statusNumber State.reset.status = 0 :=
  ⟨rfl, rfl, rfl⟩

theorem witness_InitComplementsCrcIn :
    State.reset.status.busy = false ∧ State.reset.crcIn = 0#32 ∧ inTail.status.busy = true ∧
      ({ State.reset with crcIn := 0xFFFFFFFF#32 } : State).crcIn = 0xFFFFFFFF#32 ∧
      ({ State.reset with crcIn := 0xE3069283#32 } : State).crcIn = 0xE3069283#32 := ⟨rfl, rfl, rfl, rfl, rfl⟩

theorem witness_FinalComplementsAcc :
    (idle 0x1CF96D7C#64 0).status.busy = false ∧ (idle 0x1CF96D7C#64 0).acc = 0x000000001CF96D7C#64 ∧
      inTail.status.busy = true := ⟨rfl, rfl, rfl⟩

theorem witness_Step1FoldsOneByte :
    (idle 0 0).status.busy = false ∧ (idle 0 0).acc = 0#64 ∧ inTail.status.busy = true ∧
      0x78#8 = (idle 0x12345678#64 0).acc.extractLsb' 0 8 ∧
      (withInput (.write 0 0x00010010#32) State.reset).inputs =
        .write State.reset.params.regBase 0x00010010#32 :: [] ∧
      (0x00010010#32).extractLsb' 0 8 = 0x10#8 ∧ (0x00010010#32).extractLsb' 16 16 ≠ 0#16 :=
  ⟨rfl, rfl, rfl, by decide, rfl, by decide, by decide⟩

theorem witness_Step4FoldsFourBytes :
    (idle 0x12345678#64 0x12345678#64).status.busy = false ∧ inTail.status.busy = true ∧
      (idle 0x12345678#64 0x12345678#64).din.extractLsb' 0 32 =
        (idle 0x12345678#64 0x12345678#64).acc.extractLsb' 0 32 ∧
      (idle 0 1#64).acc = 0#64 ∧ (idle 0 1#64).din = 1#64 ∧
      (idle 0 0x01000000#64).din = 0x01000000#64 ∧
      (withInput (.write 0 0x00000111#32) State.reset).inputs =
        .write State.reset.params.regBase 0x00000111#32 :: [] ∧
      (0x00000111#32).extractLsb' 0 8 = 0x11#8 ∧ (0x00000111#32).extractLsb' 8 24 ≠ 0#24 :=
  ⟨rfl, rfl, rfl, rfl, rfl, rfl, rfl, by decide, by decide⟩

theorem witness_SwstepFoldsTwoWords :
    (idle 0x00000000FFFFFFFF#64 0xFFFFFFFFFFFFFFFF#64).status.busy = false ∧ inTail.status.busy = true ∧
      (idle 0x00000000FFFFFFFF#64 0xFFFFFFFFFFFFFFFF#64).acc = 0x00000000FFFFFFFF#64 ∧
      (idle 0x00000000FFFFFFFF#64 0xFFFFFFFFFFFFFFFF#64).din = 0xFFFFFFFFFFFFFFFF#64 := ⟨rfl, rfl, rfl, rfl⟩

/-- An idle engine without any optional unit. -/
def bare : State :=
  State.resetOf { Config.sample with hw4 := false, hw8 := false, neon := false, batch := false }

theorem witness_Crc32cWordInstruction :
    State.reset.status.busy = false ∧ State.reset.params.hw4 = true ∧ bare.status.busy = false ∧
      bare.params.hw4 = false ∧ inTail.status.busy = true ∧
      State.reset.din.extractLsb' 0 32 = State.reset.acc.extractLsb' 0 32 := ⟨rfl, rfl, rfl, rfl, rfl, rfl⟩

theorem witness_Crc32cDoubleInstruction :
    State.reset.status.busy = false ∧ State.reset.params.hw8 = true ∧ bare.status.busy = false ∧
      bare.params.hw8 = false ∧ inTail.status.busy = true ∧ State.reset.din = 0#64 ∧ State.reset.acc = 0#64 :=
  ⟨rfl, rfl, rfl, rfl, rfl, rfl, rfl⟩

theorem witness_NeonDoubleInstruction :
    State.reset.status.busy = false ∧ State.reset.params.neon = true ∧ State.reset.params.hw8 = true ∧
      bare.status.busy = false ∧
      bare.params.neon = false ∧ inTail.status.busy = true ∧ State.reset.din = 0#64 ∧ State.reset.acc = 0#64 :=
  ⟨rfl, rfl, rfl, rfl, rfl, rfl, rfl, rfl⟩

theorem witness_WstepRunsTheSelectedStep :
    State.reset.status.busy = false ∧ inTail.status.busy = true := ⟨rfl, rfl⟩

/-- One byte past the top, and up to it. -/
def atTop (len : Dword) : State := { State.reset with addr := 0xFFFFFFFFFFFFFFF8#64, len := len }

theorem witness_ExtendPastTheTopIsRejected :
    (atTop 9#64).status.busy = false ∧
      2 ^ (atTop 9#64).params.addrW < (atTop 9#64).addr.toNat + (atTop 9#64).len.toNat := ⟨rfl, by decide⟩

theorem witness_ExtendIsAccepted :
    (atTop 8#64).params.wf ∧ (atTop 8#64).status.busy = false ∧
      (atTop 8#64).addr.toNat + (atTop 8#64).len.toNat ≤ 2 ^ (atTop 8#64).params.addrW ∧
      inTail.status.busy = true := ⟨by decide, rfl, by decide, rfl⟩

theorem witness_AtomicCommandFrame :
    Instr.nop ≠ .extend ∧ (∃ t, exec .nop State.reset = .next t) ∧ Instr.nop ≠ .final ∧
      (∃ t, exec .final State.reset = .next t) ∧ ¬ UnitAbsent State.reset.params .crc32cD ∧
      (∃ t, exec .crc32cD State.reset = .next t) ∧ UnitAbsent bare.params .crc32cD ∧
      (∃ t, exec .crc32cD bare = .next t) ∧ (∃ t, exec .step4 inTail = .next t) := by
  refine ⟨by decide, ?_, by decide, ?_, by unfold UnitAbsent; decide, ?_, by unfold UnitAbsent; decide, ?_, ?_⟩
    <;> exact exec_next_of_isSome (by decide +kernel)

theorem witness_ExtendCommandFrame : ∃ t, exec .extend (atTop 8#64) = .next t :=
  exec_next_of_isSome (by decide +kernel)

theorem witness_FirstErrorIsKeptUntilCleared :
    (withInput (.write 4 4#32) inTail).inputs = .write (inTail.params.regBase + 0x04) 4#32 :: [] := rfl

theorem witness_UnavailExactlyForAbsentUnits :
    bare.status.busy = false ∧ UnitAbsent bare.params .crc32cW ∧ UnitAbsent bare.params .crc32cD ∧
      UnitAbsent bare.params .neonD ∧
      (atTop 9#64).status.busy = false ∧ (atTop 9#64).status.err = false ∧
      ¬ UnitAbsent (atTop 9#64).params .extend ∧
      ∃ t, exec .extend (atTop 9#64) = .next t ∧ t.status.err = true :=
  ⟨rfl, by unfold UnitAbsent; decide, by unfold UnitAbsent; decide, by unfold UnitAbsent; decide, rfl, rfl,
    by unfold UnitAbsent; decide, acceptExtend (clearDone (atTop 9#64)),
    accept_accepted .extend acceptExtend (atTop 9#64) rfl rfl, by decide⟩

theorem witness_CmdWriteErrorPriority :
    (withInput (.write 0 3#32) inTail).inputs = .write inTail.params.regBase 3#32 :: [] ∧
      inTail.status.busy = true ∧
      (withInput (.write 0 3#32) bare).inputs = .write bare.params.regBase 3#32 :: [] ∧
      bare.status.busy = false ∧ ¬ IsCommandWord 3#32 ∧
      decodeWord 0x20#32 = .ok .crc32cW ∧ UnitAbsent bare.params .crc32cW ∧
      (atTop 9#64).status.busy = false ∧ decodeWord 0x40#32 = .ok .extend ∧
      2 ^ (atTop 9#64).params.addrW < (atTop 9#64).addr.toNat + (atTop 9#64).len.toNat ∧
      ¬ UnitAbsent (atTop 8#64).params .extend ∧
      ¬ (Instr.extend = .extend ∧
        2 ^ (atTop 8#64).params.addrW < (atTop 8#64).addr.toNat + (atTop 8#64).len.toNat) :=
  ⟨rfl, rfl, rfl, rfl, not_command_3, by decide, by unfold UnitAbsent; decide, rfl, by decide, by decide,
    by unfold UnitAbsent; decide, by decide⟩

/-- The bytes of the buffer but its last. -/
def gap : List Host.Cell := buffer.dropLast

/-- A missing byte ahead of a phase: the last byte of what the micro-step reads. -/
theorem witness_FailedReadAborts :
    let s := extending .g16 0x2018 16 0x2018 gap
    Inv s ∧ s.inputs = [] ∧ Memory.bytes s.mem s.curNat (readSpan s) = none ∧
      sideEffectIn s.params s.curNat (readSpan s) = false := by
  refine ⟨by constructor <;> decide +kernel, rfl, by decide +kernel, by decide +kernel⟩

/-- G16 over a buffer whose last byte is unlisted and has a side effect. -/
def pastListed : State :=
  { extending .g16 0x2010 16 0x2010 (buffer.take 31) with params := { small with sideEffects := [⟨0x201F, 1⟩] } }

/-- G8 over a buffer of which no byte is listed and the first has a side effect. -/
def noneListed : State :=
  { extending .g8 0x2000 8 0x2000 [] with params := { small with sideEffects := [⟨0x2000, 1⟩] } }

/-- The last place that the micro-step reads, and the first one; no listed place has a side effect. -/
theorem witness_ReadWithSideEffectIsRefused :
    (Inv pastListed ∧ pastListed.inputs = [] ∧ 15 < readSpan pastListed ∧
      Memory.bytes pastListed.mem pastListed.curNat 15 =
        some ((List.range 15).map (fun i => BitVec.ofNat 8 (16 + i))) ∧
      sideEffectAt pastListed.params (pastListed.curNat + 15) = true ∧
      ∀ c ∈ pastListed.mem, sideEffectAt pastListed.params c.1 = false) ∧
    (Inv noneListed ∧ noneListed.inputs = [] ∧ 0 < readSpan noneListed ∧
      Memory.bytes noneListed.mem noneListed.curNat 0 = some [] ∧
      sideEffectAt noneListed.params (noneListed.curNat + 0) = true) := by
  refine ⟨⟨by constructor <;> decide +kernel, rfl, ?_, ?_, ?_, ?_⟩,
    by constructor <;> decide +kernel, rfl, ?_, ?_, ?_⟩ <;> decide +kernel

theorem witness_HostWritesWhileIdle :
    State.reset.status.busy = false ∧
      (withInput (.write 0x0C 1#32) State.reset).inputs = .write (State.reset.params.regBase + 0x0C) 1#32 :: [] ∧
      (withInput (.write 0x10 1#32) State.reset).inputs = .write (State.reset.params.regBase + 0x10) 1#32 :: [] ∧
      (withInput (.write 0x14 1#32) State.reset).inputs = .write (State.reset.params.regBase + 0x14) 1#32 :: [] ∧
      (withInput (.write 0x18 1#32) State.reset).inputs = .write (State.reset.params.regBase + 0x18) 1#32 :: [] ∧
      (withInput (.write 0x1C 1#32) State.reset).inputs = .write (State.reset.params.regBase + 0x1C) 1#32 :: [] ∧
      (withInput (.write 0x20 1#32) State.reset).inputs = .write (State.reset.params.regBase + 0x20) 1#32 :: [] ∧
      (withInput (.write 0x24 1#32) State.reset).inputs = .write (State.reset.params.regBase + 0x24) 1#32 :: [] ∧
      (withInput (.write 0x28 1#32) State.reset).inputs = .write (State.reset.params.regBase + 0x28) 1#32 :: [] ∧
      (withInput (.write 0x08 1#32) State.reset).inputs = .write (State.reset.params.regBase + 0x08) 1#32 :: [] :=
  ⟨rfl, rfl, rfl, rfl, rfl, rfl, rfl, rfl, rfl, rfl⟩

/-- The same value selects an absent unit (`bare`) and a present one. -/
theorem witness_CapTakesOnlyPresentUnits :
    bare.status.busy = false ∧ (2#32).toNat % 4 = 2 ∧ bare.params.hw8 = false ∧ State.reset.params.hw8 = true ∧
      (withInput (.write 8 2#32) bare).inputs = .write (bare.params.regBase + 0x08) 2#32 :: [] ∧
      (withInput (.read 8) bare).inputs = .read (bare.params.regBase + 0x08) :: [] :=
  ⟨rfl, rfl, rfl, rfl, rfl, rfl⟩

theorem witness_WritesWhileBusy :
    inTail.status.busy = true ∧
      (withInput (.write 0x28 0#32) inTail).inputs = .write (inTail.params.regBase + 0x28) 0#32 :: [] ∧
      0x28 ∈ [0x00, 0x08, 0x0C, 0x10, 0x14, 0x18, 0x1C, 0x20, 0x24, 0x28] ∧
      (withInput (.write 0x04 0#32) inTail).inputs = .write (inTail.params.regBase + 0x04) 0#32 :: [] ∧
      (withInput (.write 0x2C 0#32) inTail).inputs = .write (inTail.params.regBase + 0x2C) 0#32 :: [] ∧
      0x2C ∈ [0x2C, 0x30, 0x34, 0x38, 0x3C] ∧
      (withInput (.write 0x40 0#32) inTail).inputs = .write (inTail.params.regBase + 0x40) 0#32 :: [] ∧
      (0x40 ≤ 0x40 ∧ 0x40 % 4 = 0) :=
  ⟨rfl, rfl, by decide, rfl, rfl, by decide, rfl, by decide⟩

theorem witness_ReadOnlyAndReservedWritesAreIgnored :
    (withInput (.write 0x3C 0#32) State.reset).inputs = .write (State.reset.params.regBase + 0x3C) 0#32 :: [] ∧
      0x3C ∈ [0x2C, 0x30, 0x34, 0x38, 0x3C] ∧
      (withInput (.write 0x40 0#32) State.reset).inputs = .write (State.reset.params.regBase + 0x40) 0#32 :: [] ∧
      (0x40 ≤ 0x40 ∧ 0x40 % 4 = 0) := ⟨rfl, by decide, rfl, by decide⟩

theorem witness_StableRegistersRead :
    (withInput (.read 0) inTail).inputs = .read (inTail.params.regBase + 0x00) :: [] ∧
      (withInput (.read 0x3C) inTail).inputs = .read (inTail.params.regBase + 0x3C) :: [] ∧
      (withInput (.read 0x40) inTail).inputs = .read (inTail.params.regBase + 0x40) :: [] ∧
      (0x40 ≤ 0x40 ∧ 0x40 % 4 = 0 ∧ (0#32 : Word) = 0#32) := ⟨rfl, rfl, rfl, by decide⟩

theorem witness_AccAndCurReads :
    (withInput (.read 0x28) State.reset).inputs = .read (State.reset.params.regBase + 0x28) :: [] ∧
      State.reset.status.busy = false ∧
      (withInput (.read 0x38) inTail).inputs = .read (inTail.params.regBase + 0x38) :: [] ∧
      inTail.status.busy = true ∧ 0x38 ∈ [0x28, 0x34, 0x38] := ⟨rfl, rfl, rfl, rfl, by decide⟩

theorem witness_OtherHostAccessesAreRefused :
    (withInput (.otherAccess 0 1) State.reset).inputs = .otherAccess 0 1 :: [] ∧
      (1 : Nat) ≠ 4 ∧
      (withInput (.write 2 0#32) State.reset).inputs = .write (State.reset.params.regBase + 2) 0#32 :: [] ∧
      (withInput (.read 1) State.reset).inputs = .read (State.reset.params.regBase + 1) :: [] ∧
      2 % 4 ≠ 0 ∧ 1 % 4 ≠ 0 := ⟨rfl, by decide, rfl, rfl, by decide, by decide⟩

theorem witness_ReadsAreLittleEndian :
    inG16.memBytes 0x2026 2 = .data [0x26#8, 0x27#8] ∧ inG16.memBytes 0 0 = .data [] := by decide +kernel

/-- The top of the address space while idle; the places next to the buffer on either side while busy. -/
theorem witness_StoredByteReadsBack :
    (withInput (.store (2 ^ 64 - 1) 7#8) State.reset).inputs = .store (2 ^ 64 - 1) 7#8 :: [] ∧
      2 ^ 64 - 1 < 2 ^ State.reset.params.addrW ∧
      sideEffectAt State.reset.params (2 ^ 64 - 1) = false ∧ State.reset.status.busy = false ∧
      Memory.wf State.reset.mem ∧
      (withInput (.store 0x1FFF 7#8) inTail).inputs = .store 0x1FFF 7#8 :: [] ∧ inTail.status.busy = true ∧
      0x1FFF < inTail.addr.toNat ∧ inTail.addr.toNat + inTail.len.toNat ≤ 0x2028 ∧
      sideEffectAt inTail.params 0x1FFF = false ∧ sideEffectAt inTail.params 0x2028 = false := by
  refine ⟨rfl, by decide, by decide, rfl, by decide, rfl, rfl, ?_, ?_, ?_, ?_⟩ <;> decide

/-- The last place of the buffer, and the first, which was consumed. -/
theorem witness_ByteStoredWhileBusyIsDrawn :
    (withInput (.store 0x2027 7#8) inTail).inputs = .store 0x2027 7#8 :: [] ∧
      0x2027 < 2 ^ inTail.params.addrW ∧ sideEffectAt inTail.params 0x2027 = false ∧
      inTail.status.busy = true ∧ inTail.addr.toNat ≤ 0x2000 ∧ 0x2000 < inTail.curNat ∧
      0x2027 < inTail.addr.toNat + inTail.len.toNat ∧
      0x2027 ∈ ({ inTail with touched := [0x2027] } : State).touched ∧
      Memory.lookup inTail.mem 0x2027 = some 0x27#8 := by decide +kernel

theorem witness_OnlyStoresWriteTheBuffer :
    (∃ t, step inTail = .next t) ∧ ∀ a b, inTail.inputs.head? ≠ some (.store a b) :=
  ⟨next_of_isSome (by decide +kernel), by intro a b; simp [inTail, extending, State.resetOf]⟩

theorem witness_AlignMicroStep :
    inAlign.inputs = [] ∧ inAlign.phase = .align ∧ ¬ (inAlign.curNat % 4 = 0 ∨ inAlign.curNat = inAlign.endNat) ∧
      inAlign.memBytes inAlign.curNat 1 = .data [0x01#8] ∧
      inAlign.params.wf ∧ inAlign.curNat ≤ inAlign.endNat ∧ inAlign.endNat ≤ 2 ^ inAlign.params.addrW ∧
      (extending .align 0x2001 39 0x2004 buffer).curNat % 4 = 0 := by decide +kernel

theorem witness_TailMicroStep :
    inTail.inputs = [] ∧ inTail.phase = .tail ∧ inTail.curNat ≠ inTail.endNat ∧
      inTail.memBytes inTail.curNat 1 = .data [0x27#8] ∧
      inTail.params.wf ∧ inTail.curNat ≤ inTail.endNat ∧ inTail.endNat ≤ 2 ^ inTail.params.addrW ∧
      (extending .tail 0x2000 40 0x2028 buffer).curNat = (extending .tail 0x2000 40 0x2028 buffer).endNat := by
  decide +kernel

/-- A prefix of 32 of the 40 bytes. -/
theorem witness_BatchMicroStep :
    inBatch.inputs = [] ∧ inBatch.phase = .batch ∧ inBatch.params.wf ∧ inBatch.curNat ≤ inBatch.endNat ∧
      inBatch.endNat ≤ 2 ^ inBatch.params.addrW ∧
      32 = (inBatch.endNat - inBatch.curNat) / inBatch.params.batchChunk * inBatch.params.batchChunk ∧
      inBatch.memBytes inBatch.curNat 32 = .data ((List.range 32).map (BitVec.ofNat 8)) := by decide +kernel

theorem witness_WordMicroStepsFoldTheirBytes :
    (inG16.inputs = [] ∧ inG16.params.wf ∧ inG16.curNat ≤ inG16.endNat ∧ inG16.endNat ≤ 2 ^ inG16.params.addrW ∧
      inG16.phase = .g16 ∧ 16 ≤ inG16.endNat - inG16.curNat ∧
      inG16.memBytes inG16.curNat 16 = .data ((List.range 16).map (fun i => BitVec.ofNat 8 (16 + i)))) ∧
    (inG8.inputs = [] ∧ inG8.curNat ≤ inG8.endNat ∧ inG8.phase = .g8 ∧ 8 ≤ inG8.endNat - inG8.curNat ∧
      inG8.memBytes inG8.curNat 8 = .data ((List.range 8).map (fun i => BitVec.ofNat 8 (32 + i)))) ∧
    (extending .g16 0x2000 40 0x2020 buffer).endNat - (extending .g16 0x2000 40 0x2020 buffer).curNat < 16 ∧
    (extending .g8 0x2000 40 0x2028 buffer).endNat - (extending .g8 0x2000 40 0x2028 buffer).curNat < 8 := by
  decide +kernel

theorem witness_FinalMicroStep : inFinal.inputs = [] ∧ inFinal.phase = .final := ⟨rfl, rfl⟩

theorem witness_PhaseGraph : Inv inFinal ∧ ∃ t, step inFinal = .next t ∧ t.phase ≠ inFinal.phase :=
  ⟨inv_inFinal, _, rfl, by decide⟩

theorem witness_CursorNeverDecreases :
    Inv inTail ∧ inTail.status.busy = true ∧ (∃ t, step inTail = .next t) ∧
      (∃ t, step (extending .align 0x2001 39 0x2004 buffer) = .next t ∧ t.status.busy = true) :=
  ⟨inv_inTail, rfl, next_of_isSome (by decide +kernel), _, rfl, rfl⟩

/-- The final micro-step, a reset; an abort is `witness_FailedReadAborts`. -/
theorem witness_WhatEndsAnExtend :
    inFinal.status.busy = true ∧ (∃ t, step inFinal = .next t ∧ t.status.busy = false) ∧
      ∃ t, step (withInput .reset inFinal) = .next t ∧ t.status.busy = false :=
  ⟨rfl, ⟨_, rfl, rfl⟩, _, rfl, rfl⟩

theorem witness_WhatWritesResult :
    (∃ t, step inFinal = .next t ∧ t.result ≠ inFinal.result) ∧
      ∃ t, step (withInput .reset { inFinal with result := 1#32 }) = .next t ∧ t.result ≠ 1#32 :=
  ⟨⟨_, rfl, by decide⟩, _, rfl, by decide⟩

theorem witness_OperandsAreStableWhileBusy :
    inFinal.status.busy = true ∧ (∃ t, step inFinal = .next t) ∧ inFinal.inputs.head? ≠ some .reset ∧
      (∃ t, step inTail = .next t) ∧ inTail.phase ≠ .final :=
  ⟨rfl, ⟨_, rfl⟩, by decide, next_of_isSome (by decide +kernel), by decide⟩

theorem witness_EveryStepKeepsTheInvariant : Inv inG16 ∧ ∃ t, step inG16 = .next t :=
  ⟨inv_inG16, next_of_isSome (by decide +kernel)⟩

theorem witness_ResetHasTheInvariant : Config.sample.wf ∧ small.wf := by decide

/-- The first byte consumed in ALIGN, from the trace of 95_test_vectors.md section 4. -/
theorem witness_EveryStepKeepsTheAccumulatorLaw :
    let s := tracePoint .align 0x1002 0x6F0A661C#64
    Inv s ∧ AccumulatorLaw s ∧ ∃ t, step s = .next t :=
  ⟨by constructor <;> decide +kernel, fun _ _ => ⟨[0x31#8], by decide +kernel, by decide +kernel⟩,
    next_of_isSome (by decide +kernel)⟩

theorem witness_ResetAtAnyTime : (withInput .reset inG16).inputs = .reset :: [] := rfl

/-- A plain one, one with nothing to read, and one whose buffer ends at the top of the address space. -/
theorem witness_ExtendRunsToTheChecksum :
    Undisturbed start ((List.range 9).map (fun i => BitVec.ofNat 8 (0x31 + i))) ∧ Undisturbed State.reset [] ∧
      Undisturbed { atTop 8#64 with mem := (List.range 8).map (fun i => (2 ^ 64 - 8 + i, 0#8)) }
        (List.replicate 8 0#8) := by
  refine ⟨⟨?_, ?_, ?_, ?_, ?_, ?_⟩, ⟨?_, ?_, ?_, ?_, ?_, ?_⟩, ⟨?_, ?_, ?_, ?_, ?_, ?_⟩⟩ <;> decide +kernel

/-- An empty `EXTEND`: busy after each of 4 micro-steps, and complete after the fifth. -/
theorem witness_ExtendThatCompletesIsRight :
    Inv State.reset ∧ State.reset.status.busy = false ∧
      ∃ a t, exec .extend State.reset = .next a ∧
        (∀ j, j ≤ 4 → ∃ m : State, Sys2Proof.core.run j a = .next m ∧ m.status.busy = true) ∧
        Sys2Proof.core.run (4 + 1) a = .next t ∧ t.status.busy = false ∧ t.status.done = true ∧ t.touched = [] := by
  refine ⟨inv_reset, rfl, acceptExtend (clearDone State.reset), _,
    accept_accepted .extend acceptExtend State.reset rfl rfl, ?_, rfl, rfl, rfl, rfl⟩
  intro j hj
  have : j = 0 ∨ j = 1 ∨ j = 2 ∨ j = 3 ∨ j = 4 := by omega
  rcases this with rfl | rfl | rfl | rfl | rfl <;> exact ⟨_, rfl, rfl⟩

/-- The same bytes at another address, without the optional units and without the alignment phase. -/
theorem witness_ResultIndependentOfConfiguration :
    Undisturbed start ((List.range 9).map (fun i => BitVec.ofNat 8 (0x31 + i))) ∧
      Undisturbed
        { State.resetOf { bare.params with align := .omitted } with
          addr := 0x5#64, len := 9#64, mem := (List.range 9).map (fun i => (5 + i, BitVec.ofNat 8 (0x31 + i))) }
        ((List.range 9).map (fun i => BitVec.ofNat 8 (0x31 + i))) ∧ start.crcIn = 0#32 := by
  refine ⟨⟨?_, ?_, ?_, ?_, ?_, ?_⟩, ⟨?_, ?_, ?_, ?_, ?_, ?_⟩, rfl⟩ <;> decide +kernel

/-- The same hypothesis, met by an empty `EXTEND`, which takes 5 micro-steps of the 6 allowed. -/
theorem witness_ExtendStepsAreLinear : Undisturbed State.reset [] ∧ extendSteps State.reset = 5 :=
  ⟨witness_ExtendRunsToTheChecksum.2.1, by decide +kernel⟩

end Sys2Proof.Tests
end

section
/-! The invariant of the machine's states (O47, O48), cut into what holds in every state and what holds while an
`EXTEND` is in progress. -/
namespace Sys2Proof.Machine

/-! ### The two parts of the invariant -/

/-- `ERRCODE` fits `ERR`: 0 without an error, one of the codes 1 to 5 with one. -/
def CodeLegal (st : Status) : Prop :=
  (st.err = false → st.errcode = 0#4) ∧ (st.err = true → 1 ≤ st.errcode.toNat ∧ st.errcode.toNat ≤ 5)

/-- The clauses of `Inv` that do not depend on whether an `EXTEND` is in progress. -/
structure Standing (s : State) : Prop where
  params_wf : s.params.wf
  acc_high : hiHalf s.acc = 0#32
  code_legal : CodeLegal s.status
  cap_legal : s.cap.sel.present s.params = true ∧ (s.cap.batchEn = true → s.params.batch = true)
  mem_wf : Memory.wf s.mem
  mem_space : ∀ c ∈ s.mem, c.1 < 2 ^ s.params.addrW
  positions : s.curNat < 2 ^ (s.params.addrW + 1) ∧ s.endNat < 2 ^ (s.params.addrW + 1)

/-- The clauses of `Inv` on an `EXTEND` in progress that hold whatever its phase. -/
structure Driving (s : State) : Prop where
  busy : s.status.busy = true
  not_done : s.status.done = false
  cap_latched : s.capl = s.cap
  addr_le_cur : s.addr.toNat ≤ s.curNat
  cur_le_end : s.curNat ≤ s.endNat
  end_eq : s.endNat = s.addr.toNat + s.len.toNat
  end_le_top : s.endNat ≤ 2 ^ s.params.addrW
  touched_in : ∀ a ∈ s.touched, s.addr.toNat ≤ a ∧ a < s.addr.toNat + s.len.toNat

/-- The word steps start at multiples of 4 with `ALIGN4` (20_memory.md R68). -/
def WordAligned (s : State) : Prop := s.params.align = .align4 → s.curNat % 4 = 0 ∨ s.curNat = s.endNat

/-- What `Inv` asks in each phase of an `EXTEND` in progress. -/
def PhaseRule (s : State) : Phase → Prop
  | .idle => False
  | .batch => s.curNat = s.addr.toNat ∧ s.capl.batchEn = true ∧ s.params.batchMin ≤ s.len.toNat
  | .align => s.params.align = .align4
  | .g16 => WordAligned s
  | .g8 => WordAligned s ∧ s.remaining < 16
  | .tail => s.remaining < 8
  | .final => s.curNat = s.endNat

theorem Inv.standing {s : State} (h : Inv s) : Standing s :=
  { h with code_legal := ⟨h.code_zero, h.code_known⟩ }

theorem Inv.driving {s : State} (h : Inv s) (hb : s.status.busy = true) : Driving s := by
  obtain ⟨hac, hce, hend, htop⟩ := h.bounds hb
  exact ⟨hb, h.not_done hb, h.cap_latched hb, hac, hce, hend, htop, h.touched_in hb⟩

theorem Inv.phaseRule {s : State} (h : Inv s) {p : Phase} (hq : s.phase = p) (hp : p ≠ .idle := by decide) :
    PhaseRule s p := by
  cases p with
  | idle => exact hp rfl
  | batch => exact h.in_batch hq
  | align => exact h.in_align hq
  | g16 => exact h.word_aligned (.inl hq)
  | g8 => exact ⟨h.word_aligned (.inr hq), h.in_g8 hq⟩
  | tail => exact h.in_tail hq
  | final => exact h.in_final hq

theorem Inv.busy_of_phase {s : State} (h : Inv s) {p : Phase} (hq : s.phase = p) (hp : p ≠ .idle := by decide) :
    s.status.busy = true := by
  simpa using mt h.idle_iff.2 (hq ▸ hp)

/-- An idle state has the invariant when it has the clauses of every state. -/
theorem Standing.inv_of_idle {s : State} (h : Standing s) (hb : s.status.busy = false) (hp : s.phase = .idle) :
    Inv s :=
  { h with
    idle_iff := by simp [hb, hp]
    not_done := by simp [hb]
    code_zero := h.code_legal.1
    code_known := h.code_legal.2
    cap_latched := by simp [hb]
    bounds := by simp [hb]
    in_batch := by simp [hp]
    in_align := by simp [hp]
    word_aligned := by simp [hp]
    in_g8 := by simp [hp]
    in_tail := by simp [hp]
    in_final := by simp [hp]
    touched_in := by simp [hb] }

/-- A state with an `EXTEND` in progress has the invariant when it meets the rule of its phase too. -/
theorem Standing.inv_of_driving {s : State} (h : Standing s) (hd : Driving s) (hr : PhaseRule s s.phase) :
    Inv s :=
  { h with
    idle_iff := by
      have hp : s.phase ≠ .idle := fun hp => by simp [hp, PhaseRule] at hr
      simp [hp, hd.busy]
    not_done := fun _ => hd.not_done
    code_zero := h.code_legal.1
    code_known := h.code_legal.2
    cap_latched := fun _ => hd.cap_latched
    bounds := fun _ => ⟨hd.addr_le_cur, hd.cur_le_end, hd.end_eq, hd.end_le_top⟩
    in_batch := fun hp => by rwa [hp] at hr
    in_align := fun hp => by rwa [hp] at hr
    word_aligned := by
      rintro (hp | hp) <;> rw [hp] at hr
      · exact hr
      · exact hr.1
    in_g8 := fun hp => by rw [hp] at hr; exact hr.2
    in_tail := fun hp => by rwa [hp] at hr
    in_final := fun hp => by rwa [hp] at hr
    touched_in := fun _ => hd.touched_in }

/-! ### Operations that keep the invariant whatever the phase -/

theorem codeLegal_record (st : Status) (e : EngineError) (h : CodeLegal st) : CodeLegal (st.record e) := by
  refine ⟨nofun, fun _ => ?_⟩
  cases he : st.err
  · cases e <;> simp [Status.record, he, EngineError.code]
  · simpa [Status.record, he] using h.2 he

theorem Inv.withInputs {s : State} (h : Inv s) (l : List Input) : Inv { s with inputs := l } :=
  { h with }

theorem Inv.delivered {s : State} (h : Inv s) (v : Word) (d : Nat) : Inv { deliver v s with draws := d } :=
  { h with }

theorem Inv.recordError {s : State} (h : Inv s) (e : EngineError) : Inv (raiseError e s) :=
  have hc := codeLegal_record s.status e h.standing.code_legal
  { h with code_zero := hc.1, code_known := hc.2 }

theorem Inv.writeStatus {s : State} (h : Inv s) (v : Word) : Inv { s with status := s.status.write v } := by
  unfold Status.write
  split
  · exact { h with code_zero := fun _ => rfl, code_known := nofun }
  · exact h

theorem Inv.clearDone {s : State} (h : Inv s) : Inv (clearDone s) :=
  { h with not_done := fun _ => rfl }

theorem Inv.setAcc {s : State} (h : Inv s) (v : Word) : Inv (setAcc v s) :=
  { h with acc_high := hiHalf_zext64 v }

theorem Inv.writeResult {s : State} (h : Inv s) : Inv (writeResult s) :=
  { h with }

theorem Inv.setDone {s : State} (h : Inv s) (hb : s.status.busy = false) : Inv (setDone s) :=
  { h with not_done := by simp [hb] }

/-! ### Host writes to the registers -/

/-- What `CAP` becomes names only units that are present (10_state.md R23). -/
theorem ofWord_legal (p : Config.Params) (v : Word) :
    (Cap.ofWord p v).sel.present p = true ∧ ((Cap.ofWord p v).batchEn = true → p.batch = true) := by
  constructor
  · simp only [Cap.ofWord]
    split
    · assumption
    · rfl
  · simp only [Cap.ofWord, Bool.and_eq_true]
    exact And.left

theorem Inv.written {s t : State} (h : Inv s) (hw : Written s t) : Inv t := by
  have hs := h.standing
  cases hw with
  | ignored => exact h
  | rejected => exact h.recordError .busy
  | status v => exact h.writeStatus v
  | cap v hb =>
    exact Standing.inv_of_idle { hs with cap_legal := ofWord_legal s.params v } hb (h.idle_iff.2 hb)
  | crcIn _ hb | addr _ hb | len _ hb | din _ hb =>
    exact Standing.inv_of_idle { hs with } hb (h.idle_iff.2 hb)
  | acc v => exact h.setAcc v

/-! ### Commands -/

/-- After BATCH, or without it, an `EXTEND` goes on with ALIGN where that phase exists and with G16 elsewhere. -/
theorem afterBatch_phaseRule {p : Config.Params} {t : State} (hp : t.params = p) :
    PhaseRule t (afterBatch p) := by
  unfold afterBatch
  cases ha : p.align with
  | align4 => simp [PhaseRule, hp, ha]
  | omitted => simp [PhaseRule, WordAligned, hp, ha]

theorem firstPhase_phaseRule {s t : State} (hp : t.params = s.params) (hl : t.len = s.len) (hc : t.capl = s.cap)
    (hcur : t.curNat = t.addr.toNat) : PhaseRule t (firstPhase s) := by
  unfold firstPhase
  split
  next hb => exact ⟨hcur, hc ▸ hb.1, by rw [hp, hl]; exact hb.2⟩
  next => exact afterBatch_phaseRule hp

theorem Standing.inv_beginExtend {s : State} (h : Standing s) (hd : s.status.done = false)
    (htop : s.addr.toNat + s.len.toNat ≤ 2 ^ s.params.addrW) : Inv (beginExtend s) := by
  have hw : s.params.addrW ≤ 64 := h.params_wf.2.1
  have hcur : (beginExtend s).curNat = s.addr.toNat := fitPosition_toNat _ _ hw ((Nat.le_add_right _ _).trans htop)
  have hend : (beginExtend s).endNat = s.addr.toNat + s.len.toNat := fitPosition_toNat _ _ hw htop
  have hs : Standing (beginExtend s) :=
    { h with acc_high := hiHalf_zext64 _, positions := ⟨fitPosition_lt _ _, fitPosition_lt _ _⟩ }
  refine hs.inv_of_driving ?_ (firstPhase_phaseRule rfl rfl rfl hcur)
  exact
    { busy := rfl
      not_done := hd
      cap_latched := rfl
      addr_le_cur := hcur.ge
      cur_le_end := by rw [hcur, hend]; omega
      end_eq := hend
      end_le_top := hend.trans_le htop
      touched_in := by simp }

theorem Inv.acceptExtend {s : State} (h : Inv s) (hd : s.status.done = false) : Inv (acceptExtend s) := by
  unfold Machine.acceptExtend
  split
  next => exact h.recordError .range
  next htop => exact h.standing.inv_beginExtend hd (by omega)

theorem Inv.exec {s t : State} (h : Inv s) (i : Instr) (ht : exec i s = .next t) : Inv t := by
  rcases exec_next i s t ht with ⟨-, rfl⟩ | ⟨-, -, rfl⟩ | ⟨-, -, -, rfl⟩ | ⟨hb, -, -, u, hu, rfl⟩
  · exact h.recordError .busy
  · exact h.clearDone.recordError .unavail
  · exact h.clearDone.acceptExtend rfl
  · cases hu with
    | nothing => exact h.clearDone.setDone hb
    | accumulates v => exact (h.clearDone.setAcc v).setDone hb
    | finishes => exact h.clearDone.writeResult.setDone hb

theorem Inv.writeCmd {s t : State} (h : Inv s) (w : Word) (ht : writeCmd w s = .next t) : Inv t := by
  rcases writeCmd_next w s t ht with ⟨-, rfl⟩ | ⟨-, -, rfl⟩ | ⟨-, i, -, hi⟩
  · exact h.recordError .busy
  · exact h.clearDone.recordError .illegal
  · exact h.exec i hi

/-! ### The engine's turn -/

theorem Inv.abort {s : State} (h : Inv s) : Inv (abort s) :=
  Standing.inv_of_idle
    { h.standing with
      acc_high := hiHalf_zext64 _
      code_legal := codeLegal_record _ _ h.standing.code_legal
      positions := ⟨fitPosition_lt _ _, h.positions.2⟩ } rfl rfl

/-- A phase is entered when its rule is met. -/
theorem Inv.enter {s : State} (h : Inv s) (hb : s.status.busy = true) (p : Phase) (hr : PhaseRule s p) :
    Inv (setPhase p s) :=
  Standing.inv_of_driving { h.standing with } { h.driving hb with } hr

theorem Driving.consumed_curNat {s : State} (h : Driving s) (hs : Standing s) (v : Word) {n : Nat}
    (hn : n ≤ s.remaining) : (advance n (Machine.setAcc v s)).curNat = s.curNat + n := by
  have hce := h.cur_le_end
  have htop := h.end_le_top
  unfold State.remaining at hn
  exact advance_setAcc_curNat s v n hs.params_wf.2.1 (by omega)

/-- Consuming bytes of the buffer on the way to the phase `p` keeps the invariant when the rule of `p` is met
behind them. -/
theorem Inv.consume {s : State} (h : Inv s) (hb : s.status.busy = true) (v : Word) {n : Nat} (hn : n ≤ s.remaining)
    (p : Phase) (hr : PhaseRule (advance n (Machine.setAcc v s)) p) :
    Inv (setPhase p (advance n (Machine.setAcc v s))) := by
  have hd := h.driving hb
  have hcur := hd.consumed_curNat h.standing v hn
  have hs : Standing (setPhase p (advance n (Machine.setAcc v s))) :=
    { h.standing with acc_high := hiHalf_zext64 v, positions := ⟨fitPosition_lt _ _, h.positions.2⟩ }
  refine hs.inv_of_driving { hd with addr_le_cur := ?_, cur_le_end := ?_ } hr
  · exact hd.addr_le_cur.trans ((Nat.le_add_right _ _).trans hcur.ge)
  · have hce := hd.cur_le_end
    unfold State.remaining at hn
    exact hcur.trans_le (show s.curNat + n ≤ s.endNat by omega)

theorem batchPrefix_le (s : State) : batchPrefix s ≤ s.remaining := Nat.div_mul_le_self _ _

/-- The micro-step of BATCH: its prefix is consumed, and the next phase depends on whether any byte is left. -/
theorem Inv.batchStep {s : State} (h : Inv s) (hb : s.status.busy = true) (v : Word) :
    Inv (setPhase (if (advance (batchPrefix s) s).curNat = s.endNat then .final else afterBatch s.params)
      (advance (batchPrefix s) (Machine.setAcc v s))) := by
  refine h.consume hb v (batchPrefix_le s) _ ?_
  split
  next hend => exact hend
  next => exact afterBatch_phaseRule rfl

/-- Whole words consumed from an aligned start, with bytes left, end at an aligned place. -/
theorem WordAligned.consumed {s t : State} (h : WordAligned s) {n : Nat} (hp : t.params = s.params)
    (hcur : t.curNat = s.curNat + n) (hn : n ≤ s.remaining) (hpos : 0 < n) (h4 : n % 4 = 0) : WordAligned t := by
  intro ha
  have hs := h (hp ▸ ha)
  unfold State.remaining at hn
  omega

/-- The rule of a phase is still met behind bytes that its micro-step consumes without leaving it. -/
theorem PhaseRule.consumed {s t : State} {p : Phase} (hr : PhaseRule s p) {n : Nat} (hp : t.params = s.params)
    (hend : t.endNat = s.endNat) (hcur : t.curNat = s.curNat + n) (hn : n ≤ s.remaining) (hpos : 0 < n)
    (hphase : p = .align ∨ p = .tail ∨ (p = .g16 ∨ p = .g8) ∧ n % 4 = 0) : PhaseRule t p := by
  have hrem : t.remaining ≤ s.remaining := by unfold State.remaining; omega
  rcases hphase with rfl | rfl | ⟨rfl | rfl, h4⟩
  · exact (congrArg Config.Params.align hp).trans hr
  · exact hrem.trans_lt hr
  · exact WordAligned.consumed hr hp hcur hn hpos h4
  · exact ⟨hr.1.consumed hp hcur hn hpos h4, hrem.trans_lt hr.2⟩

/-- A micro-step that reads bytes at `CUR` and stays in its phase keeps the invariant. -/
theorem Inv.consumeInPhase {s : State} (h : Inv s) (v : Word) {n : Nat} (hn : n ≤ s.remaining) (hpos : 0 < n)
    (hphase : s.phase = .align ∨ s.phase = .tail ∨ (s.phase = .g16 ∨ s.phase = .g8) ∧ n % 4 = 0) :
    Inv (advance n (Machine.setAcc v s)) := by
  have hidle : s.phase ≠ .idle := by rcases hphase with hp | hp | ⟨hp | hp, -⟩ <;> simp [hp]
  have hb := h.busy_of_phase rfl hidle
  have hcur := (h.driving hb).consumed_curNat h.standing v hn
  exact h.consume hb v hn s.phase ((h.phaseRule rfl hidle).consumed rfl rfl hcur hn hpos hphase)

/-- Before the end of the buffer at least one byte remains. -/
theorem Inv.remaining_pos {s : State} (h : Inv s) (hb : s.status.busy = true) (hne : s.curNat ≠ s.endNat) :
    1 ≤ s.remaining := by
  have hce := (h.driving hb).cur_le_end
  unfold State.remaining
  omega

/-- Between the two word steps of G16 the invariant holds, and the second word remains. -/
theorem Inv.firstWord {s : State} (h : Inv s) (hp : s.phase = .g16) (hn : 16 ≤ s.remaining) (v : Word) :
    Inv (advance 8 (Machine.setAcc v s)) ∧ 8 ≤ (advance 8 (Machine.setAcc v s)).remaining := by
  have hcur := (h.driving (h.busy_of_phase hp)).consumed_curNat h.standing v (n := 8) (by omega)
  refine ⟨h.consumeInPhase v (by omega) (by omega) (.inr (.inr ⟨.inl hp, rfl⟩)), ?_⟩
  have hend : (advance 8 (Machine.setAcc v s)).endNat = s.endNat := rfl
  unfold State.remaining at hn ⊢
  omega

theorem Inv.finalStep {s : State} (h : Inv s) :
    Inv (setPhase .idle (Machine.setDone (setBusy false (Machine.writeResult s)))) :=
  Standing.inv_of_idle { h.standing with } rfl rfl

theorem Inv.microStep {s t : State} (h : Inv s) (ht : microStep s = .next t) : Inv t := by
  rcases microStep_next s t ht with ⟨-, rfl⟩ | ⟨-, -, rfl⟩ | ⟨hp, bytes, -, rfl⟩ | ⟨hp, hc, rfl⟩ |
    ⟨hp, hc, rfl⟩ | ⟨hp, hc, rfl⟩ | ⟨hp, hc, rfl⟩ | ⟨hp, b, -, rfl⟩ | ⟨hp, hc, v, w, -, -, rfl⟩ |
    ⟨hp, hc, v, -, rfl⟩ | ⟨-, rfl⟩
  · exact h
  · exact h.abort
  · exact h.batchStep (h.busy_of_phase hp) _
  · exact h.enter (h.busy_of_phase hp) .g16 fun _ => hc
  · exact h.enter (h.busy_of_phase hp) .g8 ⟨h.phaseRule hp, hc⟩
  · exact h.enter (h.busy_of_phase hp) .tail hc
  · exact h.enter (h.busy_of_phase hp) .final hc
  · rcases hp with ⟨hp, hc⟩ | ⟨hp, hc⟩
    · exact h.consumeInPhase _ (h.remaining_pos (h.busy_of_phase hp) (not_or.1 hc).2) one_pos (.inl hp)
    · exact h.consumeInPhase _ (h.remaining_pos (h.busy_of_phase hp) hc) one_pos (.inr (.inl hp))
  · obtain ⟨hmid, hrem⟩ := h.firstWord hp hc v
    exact hmid.consumeInPhase w hrem (by omega) (.inr (.inr ⟨.inl hp, rfl⟩))
  · exact h.consumeInPhase v hc (by omega) (.inr (.inr ⟨.inr hp, rfl⟩))
  · exact h.finalStep

/-! ### Stores -/

theorem Inv.stored {s : State} (h : Inv s) {a : Nat} (b : Byte) (ha : a < 2 ^ s.params.addrW) :
    Inv { s with mem := Memory.insert s.mem a b } :=
  { h with
    mem_wf := insert_wf s.mem a b h.mem_wf
    mem_space := fun c hc => by
      rcases mem_insert s.mem a b c hc with rfl | hc
      · exact ha
      · exact h.mem_space c hc }

/-- A byte of the buffer that is stored during its `EXTEND` becomes one of the touched places. -/
theorem Inv.touch {s : State} (h : Inv s) {a : Nat} (ha : s.addr.toNat ≤ a ∧ a < s.addr.toNat + s.len.toNat)
    (x : Dword) (hx : hiHalf x = 0#32) (d : Nat) :
    Inv { s with touched := if a ∈ s.touched then s.touched else a :: s.touched, acc := x, draws := d } :=
  { h with
    acc_high := hx
    touched_in := fun hb c hc => by
      split at hc
      · exact h.touched_in hb c hc
      · rcases List.mem_cons.1 hc with rfl | hc
        · exact ha
        · exact h.touched_in hb c hc }

theorem Inv.storeByte {s t : State} (h : Inv s) (a : Nat) (b : Byte) (ht : storeByte a b s = .next t) : Inv t := by
  obtain ⟨ha, -, ⟨-, hlo, hhi, rfl⟩ | ⟨-, rfl⟩⟩ := storeByte_next a b s t ht
  · refine (h.stored b ha).touch ⟨hlo, hhi⟩ _ ?_ _
    split
    · exact hiHalf_zext64 _
    · exact h.acc_high
  · exact h.stored b ha

/-! ### Reset -/

theorem inv_resetOf (p : Config.Params) (hp : p.wf) : Inv (State.resetOf p) :=
  Standing.inv_of_idle
    { params_wf := hp
      acc_high := show hiHalf 0 = 0#32 by decide
      code_legal := ⟨fun _ => rfl, nofun⟩
      cap_legal := ⟨rfl, nofun⟩
      mem_wf := List.Pairwise.nil
      mem_space := nofun
      positions := ⟨Nat.two_pow_pos _, Nat.two_pow_pos _⟩ } rfl rfl

theorem Inv.resetEngine {s : State} (h : Inv s) : Inv (resetEngine s) :=
  { inv_resetOf s.params h.params_wf with mem_wf := h.mem_wf, mem_space := h.mem_space }

/-! ### A step -/

theorem Inv.hostWrite {s t : State} (h : Inv s) (addr : Nat) (v : Word) (ht : hostWrite addr v s = .next t) :
    Inv t := by
  rcases hostWrite_next addr v s t ht with ⟨-, hw⟩ | ⟨r, -, -, rfl⟩ | ⟨-, rfl⟩
  · exact h.writeCmd v hw
  · exact h.written (writeReg_written r v s)
  · exact h

theorem Inv.hostPoll {s : State} (h : Inv s) : Inv (hostPoll s) := by
  rw [hostPoll_eq]
  split
  · exact (h.delivered s.status.toWord s.draws).withInputs _
  · exact h.delivered s.status.toWord s.draws

theorem Inv.step {s t : State} (h : Inv s) (ht : step s = .next t) : Inv t := by
  rcases step_next s t ht with ⟨rest, -, hm⟩ | ⟨addr, v, rest, -, hw⟩ | ⟨addr, rest, -, hr⟩ |
    ⟨rest, -, rfl⟩ | ⟨a, b, rest, -, hs⟩ | ⟨rest, -, rfl⟩
  · exact (h.withInputs rest).microStep hm
  · exact (h.withInputs rest).hostWrite addr v hw
  · obtain ⟨v, d, rfl⟩ := hostRead_next addr _ t hr
    exact (h.withInputs rest).delivered v d
  · exact (h.withInputs rest).hostPoll
  · exact (h.withInputs rest).storeByte a b hs
  · exact (h.withInputs rest).resetEngine

/-- Settles O47: each case of what a step can do keeps both parts of the invariant. -/
theorem everyStepKeepsTheInvariant : Obligations.EveryStepKeepsTheInvariant :=
  fun _ _ h ht => h.step ht

/-- Settles O48: an idle state with no error, an empty memory and the positions 0. -/
theorem resetHasTheInvariant : Obligations.ResetHasTheInvariant :=
  ⟨inv_resetOf, inv_resetOf Config.sample (by decide)⟩

end Sys2Proof.Machine
end

section
/-! What host reads and writes of the register window do (O26 to O31, O50). -/
namespace Sys2Proof.Machine

/-! ### Where an access lands -/

theorem hostWrite_register (r : Reg) (v : Word) (s : State) (hr : r ≠ .cmd) :
    hostWrite (s.params.regBase + offsetOf r) v s = .next (writeReg r v s) := by
  unfold hostWrite
  rw [placeOf_register]
  cases r with
  | cmd => exact absurd rfl hr
  | _ => rfl

theorem hostWrite_cmd (v : Word) (s : State) :
    hostWrite (s.params.regBase + offsetOf .cmd) v s = writeCmd v s := by
  unfold hostWrite
  rw [placeOf_register]

theorem hostWrite_reserved (off : Nat) (v : Word) (s : State) (h : 0x40 ≤ off ∧ off % 4 = 0) :
    hostWrite (s.params.regBase + off) v s = .next s := by
  unfold hostWrite
  rw [placeOf_reserved _ _ h.1 h.2]

theorem hostRead_register (r : Reg) (s : State) :
    hostRead (s.params.regBase + offsetOf r) s = .next (readReg r s) := by
  unfold hostRead
  rw [placeOf_register]

theorem hostRead_reserved (off : Nat) (s : State) (h : 0x40 ≤ off ∧ off % 4 = 0) :
    hostRead (s.params.regBase + off) s = .next (deliver 0#32 s) := by
  unfold hostRead
  rw [placeOf_reserved _ _ h.1 h.2]

/-! ### Writes -/

theorem writeReg_accepted (r : Reg) (v : Word) (s : State)
    (h : s.status.busy = false ∨ rejectedWhileBusy r = false) : writeReg r v s = setReg r v s := by
  rcases h with h | h <;> simp [writeReg, h]

theorem writeReg_rejected (r : Reg) (v : Word) (s : State) (hb : s.status.busy = true)
    (h : rejectedWhileBusy r = true) : writeReg r v s = raiseError .busy s := by
  simp [writeReg, hb, h]

theorem writeCmd_busy (w : Word) (s : State) (hb : s.status.busy = true) :
    writeCmd w s = .next (raiseError .busy s) := by
  simp [writeCmd, hb]

/-- A write that is not rejected sets the register. -/
theorem step_write_accepted {s : State} (r : Reg) {v : Word} {rest : List Input} (hr : r ≠ .cmd)
    (ha : s.status.busy = false ∨ rejectedWhileBusy r = false)
    (h : s.inputs = .write (s.params.regBase + offsetOf r) v :: rest) :
    step s = .next (setReg r v { s with inputs := rest }) := by
  rw [step_cons s _ rest h, ← writeReg_accepted r v { s with inputs := rest } ha]
  exact hostWrite_register r v { s with inputs := rest } hr

/-- Settles O26: `setReg` of each register, the address split into its halves. -/
theorem hostWritesWhileIdle : Obligations.HostWritesWhileIdle :=
  fun _ _ _ hb =>
    have hset := fun r hr => step_write_accepted r hr (.inl hb)
    ⟨hset .crcIn nofun, hset .addrLo nofun, hset .addrHi nofun, hset .lenLo nofun, hset .lenHi nofun,
      hset .dinLo nofun, hset .dinHi nofun, hset .accLo nofun, hset .cap nofun⟩

/-- The read-only registers (10_state.md R20). -/
def readOnlyRegs : List Reg := [.accHi, .result, .curLo, .curHi, .feat]

theorem setReg_readOnly (r : Reg) (v : Word) (s : State) (hr : r ∈ readOnlyRegs) : setReg r v s = s := by
  cases r with
  | accHi | result | curLo | curHi | feat => rfl
  | _ => simp [readOnlyRegs] at hr

/-- Settles O29: each read-only register ignores what is written to it, and a reserved offset holds none. -/
theorem readOnlyAndReservedWritesAreIgnored : Obligations.ReadOnlyAndReservedWritesAreIgnored := by
  intro s off v rest h hoff
  rcases hoff with hoff | hoff
  · obtain ⟨r, hr, rfl⟩ := List.mem_map.1 (show off ∈ readOnlyRegs.map offsetOf from hoff)
    have hacc : ∀ r ∈ readOnlyRegs, r ≠ .cmd ∧ rejectedWhileBusy r = false := by decide
    obtain ⟨hcmd, hacc⟩ := hacc r hr
    rw [step_write_accepted r hcmd (.inr hacc) h, setReg_readOnly r v _ hr]
  · rw [step_cons s _ rest h]
    exact hostWrite_reserved off v { s with inputs := rest } hoff

/-- The registers that reject a write while busy (10_state.md R39). -/
def rejectingRegs : List Reg :=
  [.cmd, .cap, .crcIn, .addrLo, .addrHi, .lenLo, .lenHi, .dinLo, .dinHi, .accLo]

theorem hostWrite_rejected (r : Reg) (v : Word) (s : State) (hb : s.status.busy = true) (hr : r ∈ rejectingRegs) :
    hostWrite (s.params.regBase + offsetOf r) v s = .next (raiseError .busy s) := by
  have hrej : ∀ r ∈ rejectingRegs, rejectedWhileBusy r = true := by decide
  by_cases hcmd : r = .cmd
  · rw [hcmd, hostWrite_cmd, writeCmd_busy v s hb]
  · rw [hostWrite_register r v s hcmd, writeReg_rejected r v s hb (hrej r hr)]

/-- Settles O28: `CMD` and the registers that reject, `STATUS`, and the offsets of O29. -/
theorem writesWhileBusy : Obligations.WritesWhileBusy := by
  intro s off v rest hb h
  refine ⟨fun hoff => ?_, ?_, readOnlyAndReservedWritesAreIgnored s off v rest h⟩
  · obtain ⟨r, hr, rfl⟩ := List.mem_map.1 (show off ∈ rejectingRegs.map offsetOf from hoff)
    rw [step_cons s _ rest h]
    exact hostWrite_rejected r v { s with inputs := rest } hb hr
  · rintro rfl
    exact step_write_accepted .status nofun (.inr rfl) h

/-! ### What the registers read as -/

/-- 32 bits of a register from bit `k` on, as a number. -/
theorem extractLsb'_eq_ofNat {n : Nat} (d : BitVec n) (k : Nat) :
    d.extractLsb' k 32 = BitVec.ofNat 32 (d.toNat / 2 ^ k) := by
  rw [BitVec.extractLsb', Nat.shiftRight_eq_div_pow]

theorem loHalf_eq_ofNat (d : Dword) : loHalf d = BitVec.ofNat 32 d.toNat := by
  rw [loHalf, extractLsb'_eq_ofNat, pow_zero, Nat.div_one]

theorem hiHalf_eq_ofNat (d : Dword) : hiHalf d = BitVec.ofNat 32 (d.toNat / 2 ^ 32) :=
  extractLsb'_eq_ofNat d 32

theorem curLo_eq_ofNat (s : State) : s.curLo = BitVec.ofNat 32 s.cur.toNat := by
  rw [State.curLo, extractLsb'_eq_ofNat, pow_zero, Nat.div_one]

theorem curHi_eq_ofNat (s : State) : s.curHi = BitVec.ofNat 32 (s.cur.toNat / 2 ^ 32) :=
  extractLsb'_eq_ofNat s.cur 32

theorem status_toWord_eq_ofNat (st : Status) : st.toWord = BitVec.ofNat 32 (statusNumber st) := by
  obtain ⟨busy, done, err, code⟩ := st
  simp only [Status.toWord, statusNumber]
  revert busy done err code
  decide

theorem cap_toWord_eq_ofNat (c : Cap) : c.toWord = BitVec.ofNat 32 (capNumber c) := by
  obtain ⟨sel, batchEn⟩ := c
  cases sel <;> cases batchEn <;> rfl

theorem featWord_eq_ofNat (p : Config.Params) : featWord p = BitVec.ofNat 32 (featNumber p) := by
  simp only [featWord, featNumber]
  generalize p.hw4 = hw4, p.hw8 = hw8, p.neon = neon, p.batch = batch
  revert hw4 hw8 neon batch
  decide

theorem readReg_stable (r : Reg) (s : State) (h : unspecifiedWhileBusy r = false) :
    readReg r s = deliver (regValue r s) s := by
  simp [readReg, h]

theorem readReg_idle (r : Reg) (s : State) (h : s.status.busy = false) :
    readReg r s = deliver (regValue r s) s := by
  simp [readReg, h]

theorem readReg_unspecified (r : Reg) (s : State) (hb : s.status.busy = true) (h : unspecifiedWhileBusy r = true) :
    readReg r s = { deliver (Config.freeRead s.draws) s with draws := s.draws + 1 } := by
  simp [readReg, hb, h]

theorem step_read {s : State} (r : Reg) {rest : List Input}
    (h : s.inputs = .read (s.params.regBase + offsetOf r) :: rest) :
    step s = .next (readReg r { s with inputs := rest }) := by
  rw [step_cons s _ rest h]
  exact hostRead_register r { s with inputs := rest }

/-- A register whose value is specified reads as that value. -/
theorem step_read_value {s : State} (r : Reg) {rest : List Input}
    (h : s.inputs = .read (s.params.regBase + offsetOf r) :: rest)
    (hv : s.status.busy = false ∨ unspecifiedWhileBusy r = false) :
    step s = .next { s with inputs := rest, reads := regValue r { s with inputs := rest } :: s.reads } := by
  rw [step_read r h]
  rcases hv with hb | hr
  · rw [readReg_idle r { s with inputs := rest } hb]; rfl
  · rw [readReg_stable r _ hr]; rfl

/-- The registers that read as their value whether or not the engine is busy (10_state.md R40). -/
def stableRegs : List Reg :=
  [.cmd, .status, .cap, .crcIn, .addrLo, .addrHi, .lenLo, .lenHi, .dinLo, .dinHi, .accHi, .result, .feat]

/-- The registers whose reads are unspecified while busy (10_state.md R40). -/
def unstableRegs : List Reg := [.accLo, .curLo, .curHi]

/-- Settles O30: the layouts as numbers are the values of the registers. -/
theorem stableRegistersRead : Obligations.StableRegistersRead := by
  intro s off v rest h hoff
  rcases hoff with hoff | ⟨hlo, h4, rfl⟩
  · have hlist : (off, v) ∈ stableRegs.map fun r => (offsetOf r, regValue r { s with inputs := rest }) := by
      simpa [stableRegs, offsetOf, regValue, status_toWord_eq_ofNat, cap_toWord_eq_ofNat, featWord_eq_ofNat,
        loHalf_eq_ofNat, hiHalf_eq_ofNat] using hoff
    obtain ⟨r, hr, hrv⟩ := List.mem_map.1 hlist
    obtain ⟨rfl, rfl⟩ := Prod.mk.inj hrv
    have hstable : ∀ r ∈ stableRegs, unspecifiedWhileBusy r = false := by decide
    exact step_read_value r h (.inr (hstable r hr))
  · rw [step_cons s _ rest h]
    exact hostRead_reserved off { s with inputs := rest } ⟨hlo, h4⟩

/-- Settles O31: while idle the registers read as their values, while busy as a fresh draw. -/
theorem accAndCurReads : Obligations.AccAndCurReads := by
  intro s off v rest h
  refine ⟨fun hb hoff => ?_, fun hb hoff => ?_⟩
  · have hlist : (off, v) ∈ unstableRegs.map fun r => (offsetOf r, regValue r { s with inputs := rest }) := by
      simpa [unstableRegs, offsetOf, regValue, loHalf_eq_ofNat, curLo_eq_ofNat, curHi_eq_ofNat] using hoff
    obtain ⟨r, -, hrv⟩ := List.mem_map.1 hlist
    obtain ⟨rfl, rfl⟩ := Prod.mk.inj hrv
    exact step_read_value r h (.inl hb)
  · obtain ⟨r, hr, rfl⟩ := List.mem_map.1 (show off ∈ unstableRegs.map offsetOf from hoff)
    have hunstable : ∀ r ∈ unstableRegs, unspecifiedWhileBusy r = true := by decide
    rw [step_read r h, readReg_unspecified r { s with inputs := rest } hb (hunstable r hr)]
    rfl

/-- What a write of `v` to `CAP.SEL` leaves there: the unit that bits 1:0 name, or `SW` when it is absent. -/
theorem ofWord_eq (p : Config.Params) (v : Word) :
    Cap.ofWord p v = {
      sel := if v.toNat % 4 = 1 ∧ p.hw4 = true then .hw4
        else if v.toNat % 4 = 2 ∧ p.hw8 = true then .hw8
        else if v.toNat % 4 = 3 ∧ p.neon = true then .neon
        else .sw
      batchEn := p.batch && v.getLsbD 2 } := by
  have hbits : v.extractLsb' 0 2 = BitVec.ofNat 2 (v.toNat % 4) := by
    apply BitVec.eq_of_toNat_eq
    simp
  have hlt : v.toNat % 4 < 4 := Nat.mod_lt _ (by omega)
  simp only [Cap.ofWord, hbits]
  generalize v.toNat % 4 = k at hlt
  interval_cases k <;> simp [Sel.ofBits, Sel.present]

/-- Settles O27: a write by the case of the unit that bits 1:0 name, a read by the layout of `CAP`. -/
theorem capTakesOnlyPresentUnits : Obligations.CapTakesOnlyPresentUnits := by
  refine fun s v rest => ⟨fun hb h => ?_, fun h => ?_⟩
  · rw [step_write_accepted .cap nofun (.inl hb) h, ← ofWord_eq]
    rfl
  · rw [step_read_value .cap h (.inr rfl), ← cap_toWord_eq_ofNat]
    rfl

/-- Settles O50: all but what `FEAT` reads as stands in `State.resetOf`. -/
theorem resetValues : Obligations.ResetValues :=
  fun p =>
    have hstatus : Status.reset.toWord = 0#32 := by decide
    have hcap : Cap.reset.toWord = 0#32 := by decide
    ⟨hstatus, hcap, rfl, rfl, rfl, rfl, rfl, rfl, rfl, rfl, rfl, rfl, featWord_eq_ofNat p⟩

end Sys2Proof.Machine
end

section
/-! What a step changes while an `EXTEND` is in progress, and what writes `RESULT` (O43 to O46). -/
namespace Sys2Proof.Machine

/-! ### The engine's turn -/

/-- The operand registers, `CAP`, `CAPL` and `END` are the same in both states. -/
structure OperandsKept (s t : State) : Prop where
  crcIn : t.crcIn = s.crcIn
  addr : t.addr = s.addr
  len : t.len = s.len
  din : t.din = s.din
  cap : t.cap = s.cap
  capl : t.capl = s.capl
  endPos : t.endPos = s.endPos

theorem microStep_operandsKept {s t : State} (h : microStep s = .next t) : OperandsKept s t := by
  rcases microStep_next s t h with ⟨-, rfl⟩ | ⟨-, -, rfl⟩ | ⟨-, _, -, rfl⟩ | ⟨-, -, rfl⟩ |
    ⟨-, -, rfl⟩ | ⟨-, -, rfl⟩ | ⟨-, -, rfl⟩ | ⟨-, _, -, rfl⟩ | ⟨-, -, _, _, -, -, rfl⟩ | ⟨-, -, _, -, rfl⟩ | ⟨-, rfl⟩
  all_goals exact ⟨rfl, rfl, rfl, rfl, rfl, rfl, rfl⟩

/-- The engine's turn aborts, completes, or leaves `STATUS` and `RESULT` as they are. -/
theorem microStep_status_result {s t : State} (h : microStep s = .next t) :
    t = abort s ∨ (s.phase = .final ∧ t = setPhase .idle (setDone (setBusy false (writeResult s)))) ∨
      (t.status = s.status ∧ t.result = s.result) := by
  rcases microStep_next s t h with ⟨-, rfl⟩ | ⟨-, -, rfl⟩ | ⟨-, _, -, rfl⟩ | ⟨-, -, rfl⟩ |
    ⟨-, -, rfl⟩ | ⟨-, -, rfl⟩ | ⟨-, -, rfl⟩ | ⟨-, _, -, rfl⟩ | ⟨-, -, _, _, -, -, rfl⟩ | ⟨-, -, _, -, rfl⟩ | ⟨hp, rfl⟩
  · exact .inr (.inr ⟨rfl, rfl⟩)
  · exact .inl rfl
  iterate 8
    · exact .inr (.inr ⟨rfl, rfl⟩)
  · exact .inr (.inl ⟨hp, rfl⟩)

/-- Consuming bytes of the buffer does not take `CUR` back. -/
theorem Inv.curNat_le_consumed {s : State} (h : Inv s) (hb : s.status.busy = true) (v : Word) {n : Nat}
    (hn : n ≤ s.remaining) : s.curNat ≤ (advance n (Machine.setAcc v s)).curNat :=
  (Nat.le_add_right _ _).trans ((h.driving hb).consumed_curNat h.standing v hn).ge

theorem Inv.curNat_le_microStep {s t : State} (h : Inv s) (ht : Machine.microStep s = .next t)
    (hb : s.status.busy = true) (hb' : t.status.busy = true) : s.curNat ≤ t.curNat := by
  rcases microStep_next s t ht with ⟨-, rfl⟩ | ⟨-, -, rfl⟩ | ⟨-, bytes, -, rfl⟩ | ⟨-, -, rfl⟩ |
    ⟨-, -, rfl⟩ | ⟨-, -, rfl⟩ | ⟨-, -, rfl⟩ | ⟨hp, b, -, rfl⟩ | ⟨hp, hc, v, w, -, -, rfl⟩ |
    ⟨-, hc, v, -, rfl⟩ | ⟨-, rfl⟩
  · exact le_rfl
  · cases hb'
  · exact h.curNat_le_consumed hb _ (batchPrefix_le s)
  · exact le_rfl
  · exact le_rfl
  · exact le_rfl
  · exact le_rfl
  · have hne : s.curNat ≠ s.endNat := by
      rcases hp with ⟨-, hc⟩ | ⟨-, hc⟩
      · exact (not_or.1 hc).2
      · exact hc
    exact h.curNat_le_consumed hb _ (h.remaining_pos hb hne)
  · obtain ⟨hmid, hrem⟩ := h.firstWord hp hc v
    exact (h.curNat_le_consumed hb v (by omega)).trans (hmid.curNat_le_consumed hb w hrem)
  · exact h.curNat_le_consumed hb v hc
  · cases hb'

/-! ### The other inputs while busy -/

/-- What an input that is neither the engine's turn nor a reset leaves of an `EXTEND` in progress. -/
structure ExtendKept (s t : State) : Prop extends OperandsKept s t where
  busy : t.status.busy = s.status.busy
  cur : t.cur = s.cur
  result : t.result = s.result

theorem ExtendKept.refl (s : State) : ExtendKept s s :=
  ⟨⟨rfl, rfl, rfl, rfl, rfl, rfl, rfl⟩, rfl, rfl, rfl⟩

theorem write_busy (st : Status) (v : Word) : (st.write v).busy = st.busy := by
  unfold Status.write
  split <;> rfl

theorem Written.extendKept {s t : State} (h : Written s t) (hb : s.status.busy = true) : ExtendKept s t := by
  cases h with
  | ignored => exact .refl _
  | rejected => exact { ExtendKept.refl s with }
  | status v => exact { ExtendKept.refl s with busy := write_busy s.status v }
  | cap _ hi | crcIn _ hi | addr _ hi | len _ hi | din _ hi | acc _ hi => simp [hb] at hi

theorem hostWrite_extendKept {s t : State} (addr : Nat) (v : Word) (h : hostWrite addr v s = .next t)
    (hb : s.status.busy = true) : ExtendKept s t := by
  rcases hostWrite_next addr v s t h with ⟨-, hw⟩ | ⟨r, -, -, rfl⟩ | ⟨-, rfl⟩
  · rw [writeCmd_busy v s hb, outcome_next_inj] at hw
    subst hw
    exact { ExtendKept.refl s with }
  · exact (writeReg_written r v s).extendKept hb
  · exact .refl _

theorem storeByte_extendKept {s t : State} (a : Nat) (b : Byte) (h : storeByte a b s = .next t) :
    ExtendKept s t := by
  obtain ⟨-, -, ⟨-, -, -, rfl⟩ | ⟨-, rfl⟩⟩ := storeByte_next a b s t h
  · exact { ExtendKept.refl s with }
  · exact { ExtendKept.refl s with }

theorem hostPoll_extendKept (s : State) : ExtendKept s (hostPoll s) := by
  rw [hostPoll_eq]
  split
  · exact { ExtendKept.refl s with }
  · exact { ExtendKept.refl s with }

/-- What a step from a busy state is when it is no reset: the engine's turn, or an input that leaves the `EXTEND` in
progress alone. -/
theorem step_busy_next {s t : State} (h : step s = .next t) (hb : s.status.busy = true)
    (hr : s.inputs.head? ≠ some .reset) :
    (∃ rest, microStep { s with inputs := rest } = .next t) ∨ ExtendKept s t := by
  rcases step_next s t h with ⟨rest, -, hm⟩ | ⟨addr, v, rest, -, hw⟩ | ⟨addr, rest, -, hrd⟩ |
    ⟨rest, -, rfl⟩ | ⟨a, b, rest, -, hs⟩ | ⟨rest, hi, -⟩
  · exact .inl ⟨rest, hm⟩
  · exact .inr { hostWrite_extendKept addr v hw hb with }
  · obtain ⟨v, d, rfl⟩ := hostRead_next addr _ t hrd
    exact .inr { ExtendKept.refl s with }
  · exact .inr { hostPoll_extendKept { s with inputs := rest } with }
  · exact .inr { storeByte_extendKept a b hs with }
  · simp [hi] at hr

/-! ### An `EXTEND` in progress -/

/-- Settles O46: neither the engine's turn nor another input writes an operand. -/
theorem operandsAreStableWhileBusy : Obligations.OperandsAreStableWhileBusy := by
  intro s t h hb hr
  rcases step_busy_next h hb hr with ⟨rest, hm⟩ | hk
  · obtain ⟨hcrc, haddr, hlen, hdin, hcap, hcapl, hend⟩ := microStep_operandsKept hm
    refine ⟨hcrc, haddr, hlen, hdin, hcap, hcapl, hend, fun hp => ?_⟩
    rcases microStep_status_result hm with rfl | ⟨hf, -⟩ | ⟨-, hres⟩
    · rfl
    · exact absurd hf hp
    · exact hres
  · exact ⟨hk.crcIn, hk.addr, hk.len, hk.din, hk.cap, hk.capl, hk.endPos, fun _ => hk.result⟩

theorem step_of_reset {s t : State} (h : step s = .next t) (hr : s.inputs.head? = some .reset) :
    t = resetEngine { s with inputs := s.inputs.tail } := by
  have hcons := List.eq_cons_of_mem_head? hr
  rw [step_cons s _ _ hcons] at h
  exact ((outcome_next_inj _ _).1 h).symm

/-- Settles O43: the invariant of `t` bounds its `CUR`; a reset would leave it idle. -/
theorem cursorNeverDecreases : Obligations.CursorNeverDecreases := by
  intro s t hinv h hb hb'
  have hr : s.inputs.head? ≠ some .reset := by
    intro hr
    rw [step_of_reset h hr] at hb'
    cases hb'
  obtain ⟨-, -, -, -, -, -, hend, -⟩ := operandsAreStableWhileBusy s t h hb hr
  refine ⟨?_, ((hinv.step h).driving hb').cur_le_end, hend⟩
  rcases step_busy_next h hb hr with ⟨rest, hm⟩ | hk
  · exact (hinv.withInputs rest).curNat_le_microStep hm hb hb'
  · exact (congrArg BitVec.toNat hk.cur).ge

/-- Settles O44: of the engine's turns only the final micro-step and the abort clear `BUSY`. -/
theorem whatEndsAnExtend : Obligations.WhatEndsAnExtend := by
  intro s t h hb hb'
  by_cases hr : s.inputs.head? = some .reset
  · exact .inr (.inr hr)
  rcases step_busy_next h hb hr with ⟨rest, hm⟩ | hk
  · rcases microStep_status_result hm with rfl | ⟨hp, rfl⟩ | ⟨hst, -⟩
    · refine .inr (.inl ⟨rfl, rfl, rfl, fun he => ?_⟩)
      simp [Status.record, he, EngineError.code]
    · exact .inl ⟨hp, rfl, rfl⟩
    · simp [hst, hb] at hb'
  · simp [hk.busy, hb] at hb'

/-! ### What writes `RESULT` -/

/-- A key that is found in a list stands there with its value. -/
theorem mem_of_lookup {α β : Type} [BEq α] [LawfulBEq α] {l : List (α × β)} {k : α} {v : β}
    (h : l.lookup k = some v) : (k, v) ∈ l := by
  obtain ⟨l₁, l₂, rfl, -⟩ := List.lookup_eq_some_iff.1 h
  simp

/-- Only the address of a register lands on it. -/
theorem addr_of_placeOf {p : Config.Params} {addr : Nat} {r : Reg} (h : placeOf p addr = .register r) :
    addr = p.regBase + offsetOf r := by
  have hmap : ∀ e ∈ registerMap, e.1 = offsetOf e.2 := by decide
  unfold placeOf at h
  split at h
  next => cases h
  next hlo =>
    split at h
    next => cases h
    next =>
      split at h
      next q hq =>
        cases h
        have := hmap _ (mem_of_lookup hq)
        simp only at this
        omega
      next => cases h

/-- The decoder reads a command from no other word than its own. -/
theorem encode_of_decodeWord {w : Word} {i : Instr} (h : decodeWord w = .ok i) : encode i = w := by
  have hmap : ∀ e ∈ opcodeMap, opcodeOf e.2 = e.1 ∧ immOf e.2 = 0#8 := by decide
  have hfields : rsvField w = 0#16 ∧ immField w = immOf i ∧ opcField w = opcodeOf i := by
    unfold decodeWord at h
    split at h
    next => cases h
    next hrsv =>
      split at h
      next hopc =>
        cases h
        exact ⟨not_not.1 hrsv, rfl, hopc⟩
      next =>
        split at h
        next => cases h
        next j hj =>
          split at h
          next himm =>
            cases h
            obtain ⟨hopc, himm0⟩ := hmap _ (mem_of_lookup hj)
            exact ⟨not_not.1 hrsv, himm.trans himm0.symm, hopc.symm⟩
          next => cases h
  obtain ⟨hrsv, himm, hopc⟩ := hfields
  rw [encode, ← hrsv, ← himm, ← hopc]
  exact (word_fields w).symm

theorem acceptExtend_result (s : State) : (acceptExtend s).result = s.result := by
  unfold acceptExtend
  split <;> rfl

/-- The only command that writes `RESULT` is an accepted `FINAL`. -/
theorem exec_result {i : Instr} {s t : State} (h : exec i s = .next t) (hne : t.result ≠ s.result) :
    i = .final ∧ s.status.busy = false ∧ t.result = complement s.acc32 := by
  rcases exec_next i s t h with ⟨-, rfl⟩ | ⟨-, -, rfl⟩ | ⟨-, -, -, rfl⟩ | ⟨hb, -, -, u, hu, rfl⟩
  · exact absurd rfl hne
  · exact absurd rfl hne
  · exact absurd (acceptExtend_result _) hne
  · cases hu with
    | nothing => exact absurd rfl hne
    | accumulates => exact absurd rfl hne
    | finishes hi => exact ⟨hi, hb, rfl⟩

theorem writeCmd_result {w : Word} {s t : State} (h : writeCmd w s = .next t) (hne : t.result ≠ s.result) :
    w = encode .final ∧ s.status.busy = false ∧ t.result = complement s.acc32 := by
  rcases writeCmd_next w s t h with ⟨-, rfl⟩ | ⟨-, -, rfl⟩ | ⟨-, i, hd, hi⟩
  · exact absurd rfl hne
  · exact absurd rfl hne
  · obtain ⟨rfl, hb, hres⟩ := exec_result hi hne
    exact ⟨(encode_of_decodeWord hd).symm, hb, hres⟩

theorem Written.result {s t : State} (h : Written s t) : t.result = s.result := by
  cases h <;> rfl

/-- The only host write that changes `RESULT` is that of `FINAL` to `CMD` while idle. -/
theorem hostWrite_result {addr : Nat} {v : Word} {s t : State} (h : hostWrite addr v s = .next t)
    (hne : t.result ≠ s.result) :
    addr = s.params.regBase ∧ v = encode .final ∧ s.status.busy = false ∧ t.result = complement s.acc32 := by
  rcases hostWrite_next addr v s t h with ⟨hp, hw⟩ | ⟨r, -, -, rfl⟩ | ⟨-, rfl⟩
  · exact ⟨addr_of_placeOf hp, writeCmd_result hw hne⟩
  · exact absurd (writeReg_written r v s).result hne
  · exact absurd rfl hne

/-- Settles O45: of everything a step can be, three cases write `RESULT`. -/
theorem whatWritesResult : Obligations.WhatWritesResult := by
  intro s t h hne
  rcases step_next s t h with ⟨rest, -, hm⟩ | ⟨addr, v, rest, hi, hw⟩ | ⟨addr, rest, -, hr⟩ |
    ⟨rest, -, rfl⟩ | ⟨a, b, rest, -, hs⟩ | ⟨rest, hi, rfl⟩
  · rcases microStep_status_result hm with rfl | ⟨hp, rfl⟩ | ⟨-, hres⟩
    · exact absurd rfl hne
    · exact .inl ⟨rfl, .inl hp⟩
    · exact absurd hres hne
  · obtain ⟨rfl, rfl, hb, hres⟩ := hostWrite_result hw hne
    exact .inl ⟨hres, .inr ⟨by rw [hi]; rfl, hb⟩⟩
  · obtain ⟨v, d, rfl⟩ := hostRead_next addr _ t hr
    exact absurd rfl hne
  · exact absurd (hostPoll_extendKept _).result hne
  · exact absurd (storeByte_extendKept a b hs).result hne
  · exact .inr ⟨by rw [hi]; rfl, rfl⟩

end Sys2Proof.Machine
end

section
/-! Reads of the buffer memory: the value of their bytes, and when a micro-step's read is refused (O25, O33). -/
namespace Sys2Proof.Machine

/-! ### The bytes of a read as a number -/

theorem littleEndian_lt (bs : List Byte) : littleEndian bs < 2 ^ (8 * bs.length) := by
  induction bs with
  | nil => exact Nat.one_pos
  | cons b rest ih =>
    have hb : b.toNat < 256 := b.isLt
    calc littleEndian (b :: rest)
        < 256 * (littleEndian rest + 1) := by rw [littleEndian]; omega
      _ ≤ 256 * 2 ^ (8 * rest.length) := Nat.mul_le_mul_left 256 ih
      _ = 2 ^ (8 * (b :: rest).length) := by rw [List.length_cons, Nat.mul_succ, pow_add, mul_comm]; rfl

/-- Byte `i` of a read is bits `8 i + 7` to `8 i` of its value (20_memory.md R62). -/
theorem littleEndian_eq_sum (bs : List Byte) :
    littleEndian bs = ((List.range bs.length).map fun i => (bs.getD i 0#8).toNat <<< (8 * i)).sum := by
  induction bs with
  | nil => rfl
  | cons b rest ih =>
    have hshift : ∀ x i : Nat, x <<< (8 * (i + 1)) = 256 * x <<< (8 * i) := fun x i => by
      rw [Nat.mul_succ, Nat.shiftLeft_add, Nat.shiftLeft_eq (x <<< (8 * i)), mul_comm]
    simp [littleEndian, ih, List.range_succ_eq_map, Function.comp_def, hshift, List.sum_map_mul_left]

theorem memRead_value {s : State} {a n : Nat} {bytes : List Byte} (h : s.memBytes a n = .data bytes) :
    ∃ v, s.memRead a n = .data v ∧ v.toNat = littleEndian bytes := by
  refine ⟨_, (memRead_data_iff ..).2 ⟨bytes, h, rfl⟩, ?_⟩
  have hlt := littleEndian_lt bytes
  rw [memBytes_length s a n bytes h] at hlt
  rw [BitVec.toNat_ofNat, Nat.mod_eq_of_lt hlt]

/-- A read of several places agrees with the 1-byte reads of them (20_memory.md R66). -/
theorem memBytes_one {s : State} {a n : Nat} {bytes : List Byte} (h : s.memBytes a n = .data bytes) {i : Nat}
    (hi : i < n) : s.memBytes (a + i) 1 = .data [bytes.getD i 0#8] := by
  obtain ⟨k, rfl⟩ : ∃ k, n = i + (1 + k) := ⟨n - i - 1, by omega⟩
  obtain ⟨xs, tail, hxs, htail, rfl⟩ := memBytes_split _ _ _ _ _ h
  obtain ⟨ys, zs, hys, -, rfl⟩ := memBytes_split _ _ _ _ _ htail
  obtain ⟨b, rfl⟩ := List.length_eq_one_iff.1 (memBytes_length _ _ _ _ hys)
  rw [hys]
  simp [List.getD, ← memBytes_length _ _ _ _ hxs]

/-- Settles O33: the number is below `2 ^ (8 n)`, so `memRead` does not narrow it. -/
theorem readsAreLittleEndian : Obligations.ReadsAreLittleEndian := by
  intro s a n bytes h
  have hlen := memBytes_length s a n bytes h
  obtain ⟨v, hv, hval⟩ := memRead_value h
  exact ⟨hlen, ⟨v, hv, by rw [hval, littleEndian_eq_sum, hlen]⟩, fun _ => memBytes_one h⟩

/-! ### Reads refused for a side effect -/

theorem map_sideEffect_iff {α β : Type} (r : ReadResult α) (f : α → β) :
    r.map f = .sideEffect ↔ r = .sideEffect := by
  cases r <;> simp [ReadResult.map]

theorem andThen_sideEffect_iff {α β : Type} (r : ReadResult α) (k : α → ReadResult β) :
    r.andThen k = .sideEffect ↔ r = .sideEffect ∨ ∃ x, r = .data x ∧ k x = .sideEffect := by
  cases r <;> simp [ReadResult.andThen]

/-- How a read `r` of the `n` places from `a` treats side effects, whatever it computes from the bytes: it is refused
where it meets a place with one and every place before that holds a byte, and it gets no error where all `n` places
hold bytes. A sequence of two reads is such a read again (`ReadsAt.andThen`). -/
structure ReadsAt {α : Type} (s : State) (a n : Nat) (r : ReadResult α) : Prop where
  refused : ∀ k bytes, k < n → Memory.bytes s.mem a k = some bytes → sideEffectAt s.params (a + k) = true →
    r = .sideEffect
  answered : ∀ bytes, Memory.bytes s.mem a n = some bytes → r = .sideEffect ∨ ∃ x, r = .data x

theorem memBytes_readsAt (s : State) (a n : Nat) : ReadsAt s a n (s.memBytes a n) where
  refused k _ hk _ hse := (memBytes_sideEffect_iff s a n).2 (sideEffectIn_of_at s.params a n k hk hse)
  answered bytes hl := by
    cases hr : s.memBytes a n with
    | data bs => exact .inr ⟨bs, rfl⟩
    | sideEffect => exact .inl rfl
    | busError =>
      obtain ⟨-, hnone⟩ := (memBytes_busError_iff s a n).1 hr
      simp [hl] at hnone

theorem ReadsAt.map {α β : Type} {s : State} {a n : Nat} {r : ReadResult α} (h : ReadsAt s a n r) (f : α → β) :
    ReadsAt s a n (r.map f) where
  refused k bytes hk hl hse := (map_sideEffect_iff r f).2 (h.refused k bytes hk hl hse)
  answered bytes hl := by
    rcases h.answered bytes hl with rfl | ⟨x, rfl⟩
    · exact .inl rfl
    · exact .inr ⟨f x, rfl⟩

/-- A second read behind the first: a place of the second one is met only when the first one answered. -/
theorem ReadsAt.andThen {α β : Type} {s : State} {a n m : Nat} {r : ReadResult α} {q : α → ReadResult β}
    (h : ReadsAt s a n r) (hq : ∀ x, r = .data x → ReadsAt s (a + n) m (q x)) :
    ReadsAt s a (n + m) (r.andThen q) where
  refused k bytes hk hl hse := by
    by_cases hkn : k < n
    · exact (andThen_sideEffect_iff r q).2 (.inl (h.refused k bytes hkn hl hse))
    · obtain ⟨j, rfl⟩ := Nat.exists_eq_add_of_le (not_lt.1 hkn)
      obtain ⟨xs, ys, hxs, hys, -⟩ := bytes_split _ _ _ _ _ hl
      rw [← Nat.add_assoc] at hse
      refine (andThen_sideEffect_iff r q).2 ((h.answered xs hxs).imp_right ?_)
      exact fun ⟨x, hx⟩ => ⟨x, hx, (hq x hx).refused j ys (by omega) hys hse⟩
  answered bytes hl := by
    obtain ⟨xs, ys, hxs, hys, -⟩ := bytes_split _ _ _ _ _ hl
    rcases h.answered xs hxs with rfl | ⟨x, rfl⟩
    · exact .inl rfl
    · exact (hq x rfl).answered ys hys

theorem memRead_readsAt (s : State) (a n : Nat) : ReadsAt s a n (s.memRead a n) :=
  (memBytes_readsAt s a n).map _

theorem byteStepMem_readsAt (s : State) : ReadsAt s s.curNat 1 (byteStepMem s) :=
  (memRead_readsAt s s.curNat 1).map _

/-- A word step reads 8 places, at once or 4 and then 4 (20_memory.md R70). -/
theorem wordStepMem_readsAt (sel : Sel) (s : State) : ReadsAt s s.curNat 8 (wordStepMem sel s) := by
  refine ReadsAt.map ?_ _
  cases sel with
  | sw | hw4 => exact (memRead_readsAt s s.curNat 4).andThen fun _ _ => (memRead_readsAt s _ 4).map _
  | hw8 | neon => exact (memRead_readsAt s s.curNat 8).map _

/-- The two word steps of G16 read 16 places: the second one starts where the first one leaves `CUR`. -/
theorem wordStepMem_twice_readsAt {s : State} (h : Inv s) (hp : s.phase = .g16) (hn : 16 ≤ s.remaining) (sel : Sel) :
    ReadsAt s s.curNat 16 ((wordStepMem sel s).andThen (wordStepMem sel)) := by
  refine (wordStepMem_readsAt sel s).andThen (m := 8) fun t ht => ?_
  obtain ⟨v, -, rfl⟩ := wordStepMem_data sel s t ht
  have hcur := (h.driving (h.busy_of_phase hp)).consumed_curNat h.standing v (n := 8) (by omega)
  rw [← hcur]
  exact { wordStepMem_readsAt sel (advance 8 (Machine.setAcc v s)) with }

/-- A micro-step that reads places at all ends as its read of `readSpan` places at `CUR` does. -/
theorem Inv.microStep_reads {s : State} (h : Inv s) (hpos : 0 < readSpan s) :
    ∃ r, ReadsAt s s.curNat (readSpan s) r ∧ Machine.microStep s = finishReads s r := by
  unfold readSpan at hpos ⊢
  unfold Machine.microStep
  cases hp : s.phase with
  | idle | final => simp [hp] at hpos
  | batch => exact ⟨_, (memBytes_readsAt s s.curNat (batchPrefix s)).map _, rfl⟩
  | align =>
    by_cases hc : s.curNat % 4 = 0 ∨ s.curNat = s.endNat
    · simp [hp, hc] at hpos
    · exact ⟨_, by simpa [hc] using byteStepMem_readsAt s, if_neg hc⟩
  | g16 =>
    by_cases hc : 16 ≤ s.endNat - s.curNat
    · exact ⟨_, by simpa [hc] using wordStepMem_twice_readsAt h hp hc s.capl.sel, if_pos hc⟩
    · simp [hp, hc] at hpos
  | g8 =>
    by_cases hc : 8 ≤ s.endNat - s.curNat
    · exact ⟨_, by simpa [hc] using wordStepMem_readsAt s.capl.sel s, if_pos hc⟩
    · simp [hp, hc] at hpos
  | tail =>
    by_cases hc : s.curNat = s.endNat
    · simp [hp, hc] at hpos
    · exact ⟨_, by simpa [hc] using byteStepMem_readsAt s, if_pos hc⟩

/-- Settles O25: the micro-step ends as its read does, and that read is refused. -/
theorem readWithSideEffectIsRefused : Obligations.ReadWithSideEffectIsRefused := by
  intro s k bytes hinv hi hk hl hse
  obtain ⟨r, hr, hm⟩ := hinv.microStep_reads (Nat.zero_lt_of_lt hk)
  rw [step_nil s hi, hm, hr.refused k bytes hk hl hse]
  rfl

end Sys2Proof.Machine
end

section
/-! Stores into the buffer memory, what the other steps leave of it, and host accesses of another shape (O32, O34 to
O36). -/
namespace Sys2Proof.Machine

/-! ### Stores -/

/-- A store within the address space, at a place without side effects, is a step that `storeByte_next` describes. -/
theorem step_store {s : State} {a : Nat} {b : Byte} {rest : List Input} (h : s.inputs = .store a b :: rest)
    (ha : a < 2 ^ s.params.addrW) (hse : sideEffectAt s.params a = false) :
    ∃ t, step s = .next t ∧ storeByte a b { s with inputs := rest } = .next t := by
  rw [step_cons s _ rest h]
  simp only [handleInput, storeByte, not_le.2 ha, hse, if_false, Bool.false_eq_true]
  split
  · exact ⟨_, rfl, rfl⟩
  · exact ⟨_, rfl, rfl⟩

theorem storeByte_params_mem {a : Nat} {b : Byte} {s t : State} (h : storeByte a b s = .next t) :
    t.params = s.params ∧ t.mem = Memory.insert s.mem a b := by
  obtain ⟨-, -, ⟨-, -, -, rfl⟩ | ⟨-, rfl⟩⟩ := storeByte_next a b s t h
  · exact ⟨rfl, rfl⟩
  · exact ⟨rfl, rfl⟩

/-- Settles O34: the laws of `Memory.insert`, and the case of a store outside the buffer in progress. -/
theorem storedByteReadsBack : Obligations.StoredByteReadsBack := by
  intro s a b rest hi ha hse
  obtain ⟨t, ht, hs⟩ := step_store hi ha hse
  obtain ⟨-, hmem⟩ := storeByte_params_mem hs
  refine ⟨t, ht, ?_, fun x hx => ?_, fun hwf => ?_, fun hout => ?_⟩
  · rw [hmem, lookup_insert_self]
  · rw [hmem, lookup_insert_other _ _ _ _ hx]
  · rw [hmem]
    exact insert_wf s.mem a b hwf
  · obtain ⟨-, -, ⟨hb, hlo, hhi, -⟩ | ⟨-, rfl⟩⟩ := storeByte_next a b _ t hs
    · rcases hout with hidle | hbelow | habove
      · exact absurd hb (by simp [hidle])
      · exact absurd hlo (not_le.2 hbelow)
      · exact absurd hhi (not_lt.2 habove)
    · rfl

/-- A touched place that holds a byte reads as a free draw. -/
theorem memBytes_touched {s : State} {a : Nat} {b : Byte} (ht : a ∈ s.touched)
    (hl : Memory.lookup s.mem a = some b) (hse : sideEffectAt s.params a = false) :
    s.memBytes a 1 = .data [Config.freeByte s.draws a] := by
  have hbus : s.busByte a = some (Config.freeByte s.draws a) := by simp [State.busByte, hl, ht]
  exact (memBytes_data_iff ..).2 ⟨by simp [sideEffectIn, hse], by simp [State.busBytes, hbus]⟩

/-- Settles O35: the case of a store into the buffer in progress, and the read of a touched place. -/
theorem byteStoredWhileBusyIsDrawn : Obligations.ByteStoredWhileBusyIsDrawn := by
  refine ⟨fun s a b rest hi ha hse hb hlo hhi => ?_, fun s a b => memBytes_touched⟩
  obtain ⟨t, ht, hs⟩ := step_store hi ha hse
  obtain ⟨-, -, ⟨-, -, -, rfl⟩ | ⟨hout, -⟩⟩ := storeByte_next a b _ t hs
  · refine ⟨_, ht, ?_, fun x hx => ?_, rfl⟩
    · dsimp only
      split
      · assumption
      · exact List.mem_cons_self
    · dsimp only
      split
      · exact hx
      · exact List.mem_cons_of_mem a hx
  · exact absurd ⟨hb, hlo, hhi⟩ hout

/-! ### What the other steps leave -/

/-- The parameters and the buffer memory are the same in both states. -/
structure MemoryKept (s t : State) : Prop where
  params : t.params = s.params
  mem : t.mem = s.mem

theorem microStep_memoryKept {s t : State} (h : microStep s = .next t) : MemoryKept s t := by
  rcases microStep_next s t h with ⟨-, rfl⟩ | ⟨-, -, rfl⟩ | ⟨-, _, -, rfl⟩ | ⟨-, -, rfl⟩ |
    ⟨-, -, rfl⟩ | ⟨-, -, rfl⟩ | ⟨-, -, rfl⟩ | ⟨-, _, -, rfl⟩ | ⟨-, -, _, _, -, -, rfl⟩ | ⟨-, -, _, -, rfl⟩ | ⟨-, rfl⟩
  all_goals exact ⟨rfl, rfl⟩

theorem acceptExtend_memoryKept (s : State) : MemoryKept s (acceptExtend s) := by
  unfold acceptExtend
  split
  · exact ⟨rfl, rfl⟩
  · exact ⟨rfl, rfl⟩

theorem Effect.memoryKept {i : Instr} {s t : State} (h : Effect i s t) : MemoryKept s t := by
  cases h <;> exact ⟨rfl, rfl⟩

theorem exec_memoryKept {i : Instr} {s t : State} (h : exec i s = .next t) : MemoryKept s t := by
  rcases exec_next i s t h with ⟨-, rfl⟩ | ⟨-, -, rfl⟩ | ⟨-, -, -, rfl⟩ | ⟨-, -, -, u, hu, rfl⟩
  · exact ⟨rfl, rfl⟩
  · exact ⟨rfl, rfl⟩
  · exact { acceptExtend_memoryKept (clearDone s) with }
  · exact { hu.memoryKept with }

theorem Written.memoryKept {s t : State} (h : Written s t) : MemoryKept s t := by
  cases h <;> exact ⟨rfl, rfl⟩

theorem hostWrite_memoryKept {addr : Nat} {v : Word} {s t : State} (h : hostWrite addr v s = .next t) :
    MemoryKept s t := by
  rcases hostWrite_next addr v s t h with ⟨-, hw⟩ | ⟨r, -, -, rfl⟩ | ⟨-, rfl⟩
  · rcases writeCmd_next v s t hw with ⟨-, rfl⟩ | ⟨-, -, rfl⟩ | ⟨-, i, -, hi⟩
    · exact ⟨rfl, rfl⟩
    · exact ⟨rfl, rfl⟩
    · exact exec_memoryKept hi
  · exact (writeReg_written r v s).memoryKept
  · exact ⟨rfl, rfl⟩

theorem hostPoll_memoryKept (s : State) : MemoryKept s (hostPoll s) := by
  rw [hostPoll_eq]
  split
  · exact ⟨rfl, rfl⟩
  · exact ⟨rfl, rfl⟩

/-- A step keeps the parameters and the buffer memory, or it is a store. -/
theorem step_memoryKept {s t : State} (h : step s = .next t) :
    MemoryKept s t ∨ ∃ a b rest, s.inputs = .store a b :: rest ∧ storeByte a b { s with inputs := rest } = .next t := by
  rcases step_next s t h with ⟨rest, -, hm⟩ | ⟨addr, v, rest, -, hw⟩ | ⟨addr, rest, -, hr⟩ |
    ⟨rest, -, rfl⟩ | hs | ⟨rest, -, rfl⟩
  · exact .inl { microStep_memoryKept hm with }
  · exact .inl { hostWrite_memoryKept hw with }
  · obtain ⟨v, d, rfl⟩ := hostRead_next addr _ t hr
    exact .inl ⟨rfl, rfl⟩
  · exact .inl { hostPoll_memoryKept { s with inputs := rest } with }
  · exact .inr hs
  · exact .inl ⟨rfl, rfl⟩

/-- Settles O36: a step that is no store keeps the memory, and a store keeps the parameters. -/
theorem onlyStoresWriteTheBuffer : Obligations.OnlyStoresWriteTheBuffer := by
  intro s t h
  rcases step_memoryKept h with hk | ⟨a, b, rest, hi, hs⟩
  · exact ⟨hk.params, fun _ x => by rw [hk.mem]⟩
  · obtain ⟨hparams, -⟩ := storeByte_params_mem hs
    exact ⟨hparams, fun hno => absurd (by rw [hi]; rfl) (hno a b)⟩

/-! ### Host accesses of another shape -/

theorem placeOf_misaligned (p : Config.Params) {off : Nat} (h : off % 4 ≠ 0) :
    placeOf p (p.regBase + off) = .misaligned := by
  rw [placeOf_offset, if_pos h]

/-- Settles O32: the accesses that are not 32 bits wide, and where a misaligned access lands. -/
theorem otherHostAccessesAreRefused : Obligations.OtherHostAccessesAreRefused := by
  refine fun s rest => ⟨fun a n _ h => step_cons s _ rest h, fun off v h4 h => ?_, fun off h4 h => ?_⟩
  · rw [step_cons s _ rest h]
    simp only [handleInput, hostWrite, placeOf_misaligned s.params h4]
  · rw [step_cons s _ rest h]
    simp only [handleInput, hostRead, placeOf_misaligned s.params h4]

end Sys2Proof.Machine
end

section
/-! The command encoding, the words that are no command, and what the ten atomic commands leave unchanged (O1 to O5,
O19). -/
namespace Sys2Proof.Machine

/-! ### Decoder and encoder -/

theorem fields_encode (i : Instr) :
    rsvField (encode i) = 0#16 ∧ immField (encode i) = immOf i ∧ opcField (encode i) = opcodeOf i :=
  fields_word (immOf i) (opcodeOf i)

/-- The decoder reads a command back from its word. -/
theorem decodeWord_encode (i : Instr) : decodeWord (encode i) = .ok i := by
  cases i with
  | step1 b =>
    obtain ⟨hrsv, himm, hopc⟩ := fields_encode (.step1 b)
    simp [decodeWord, hrsv, himm, hopc, opcodeOf, immOf]
  | _ => rfl

theorem decodeWord_eq_ok_iff (w : Word) (i : Instr) : decodeWord w = .ok i ↔ w = encode i :=
  ⟨fun h => (encode_of_decodeWord h).symm, fun h => h ▸ decodeWord_encode i⟩

theorem instr_wf (i : Instr) : i.wf = true := by
  cases i with
  | step1 b => exact decide_eq_true b.isLt
  | _ => rfl

/-- A word of all 32 bits, as a number, is read as it stands. -/
theorem decodeTableWord_toNat (w : Word) : decodeTableWord 32 w.toNat = (decodeWord w).toOption := by
  rw [decodeTableWord, if_pos le_rfl, Nat.mod_eq_of_lt w.isLt, BitVec.ofNat_toNat, BitVec.setWidth_eq]

/-- Settles O2: `decodeWord_encode` is one direction, and the fields of a decoded word are the other. -/
theorem decodeInvertsEncode : Obligations.DecodeInvertsEncode :=
  ⟨decodeWord_eq_ok_iff, fun i =>
    ⟨instr_wf i, by rw [decodeTableWord_toNat, decodeWord_encode]; rfl⟩⟩

/-- Settles O1: each word is the encoding of its command. -/
theorem exampleWordsDecode : Obligations.ExampleWordsDecode :=
  ⟨decodeWord_encode .nop, decodeWord_encode .init, decodeWord_encode .final, decodeWord_encode (.step1 0x31#8),
    decodeWord_encode (.step1 0xFF#8), decodeWord_encode .step4, decodeWord_encode .swstep,
    decodeWord_encode .crc32cW, decodeWord_encode .crc32cD, decodeWord_encode .neonD, decodeWord_encode .wstep,
    decodeWord_encode .extend⟩

/-! ### The opcode map -/

/-- The opcodes of the opcode map (30_encoding.md R93). -/
def commandOpcodes : List Byte :=
  [0x00#8, 0x01#8, 0x02#8, 0x10#8, 0x11#8, 0x12#8, 0x20#8, 0x21#8, 0x22#8, 0x30#8, 0x40#8]

theorem isCommandWord_iff (w : Word) :
    IsCommandWord w ↔
      rsvField w = 0#16 ∧ opcField w ∈ commandOpcodes ∧ (opcField w = step1Opcode ∨ immField w = 0#8) :=
  Iff.rfl

theorem opcodeOf_mem_commandOpcodes (i : Instr) : opcodeOf i ∈ commandOpcodes := by
  cases i with
  | step1 b => exact (by decide : step1Opcode ∈ commandOpcodes)
  | _ => decide

/-- Each opcode but that of `STEP1` is the opcode of a command without an operand. -/
theorem exists_plain_of_mem_commandOpcodes :
    ∀ o ∈ commandOpcodes, o ≠ step1Opcode → ∃ i ∈ plainInstrs, opcodeOf i = o ∧ immOf i = 0#8 := by
  decide

theorem isCommandWord_encode (i : Instr) : IsCommandWord (encode i) := by
  obtain ⟨hrsv, himm, hopc⟩ := fields_encode i
  refine (isCommandWord_iff _).2 ⟨hrsv, hopc ▸ opcodeOf_mem_commandOpcodes i, ?_⟩
  rw [hopc, himm]
  cases i with
  | step1 b => exact .inl rfl
  | _ => exact .inr rfl

theorem eq_encode_of_fields {w : Word} {i : Instr} (hrsv : rsvField w = 0#16) (himm : immField w = immOf i)
    (hopc : opcField w = opcodeOf i) : w = encode i := by
  rw [encode, ← hrsv, ← himm, ← hopc]
  exact word_fields w

theorem IsCommandWord.exists_encode {w : Word} (h : IsCommandWord w) : ∃ i, w = encode i := by
  obtain ⟨hrsv, hmem, himm⟩ := (isCommandWord_iff w).1 h
  by_cases hstep : opcField w = step1Opcode
  · exact ⟨.step1 (immField w), eq_encode_of_fields hrsv rfl hstep⟩
  · obtain ⟨i, -, hopc, himm0⟩ := exists_plain_of_mem_commandOpcodes _ hmem hstep
    exact ⟨i, eq_encode_of_fields hrsv ((himm.resolve_left hstep).trans himm0.symm) hopc.symm⟩

/-- Settles O3: the words that decode are the encodings (O2), and these are the command words. -/
theorem commandWordsAreTheOpcodeMap : Obligations.CommandWordsAreTheOpcodeMap := by
  intro w
  simp only [decodeWord_eq_ok_iff]
  constructor
  · rintro ⟨i, rfl⟩
    exact isCommandWord_encode i
  · exact IsCommandWord.exists_encode

/-! ### Writes to `CMD` -/

theorem exec_busy (i : Instr) (s : State) (hb : s.status.busy = true) :
    exec i s = .next (raiseError .busy s) := by
  cases i <;>
    simp only [exec_nop, exec_init, exec_final, exec_step1, exec_step4, exec_swstep, exec_crc32cW, exec_crc32cD,
      exec_neonD, exec_wstep, exec_extend, atomic_busy _ _ s hb, accept_busy _ _ s hb]

theorem writeCmd_decoded {w : Word} {i : Instr} (hd : decodeWord w = .ok i) (s : State) :
    writeCmd w s = exec i s := by
  cases hb : s.status.busy with
  | true => rw [writeCmd_busy w s hb, exec_busy i s hb]
  | false => simp [writeCmd, hb, hd]

theorem writeCmd_illegal {w : Word} {s : State} (hb : s.status.busy = false) (hw : ¬ IsCommandWord w) :
    writeCmd w s = .next (raiseError .illegal (clearDone s)) := by
  cases hd : decodeWord w with
  | ok i => exact absurd ((commandWordsAreTheOpcodeMap w).1 ⟨i, hd⟩) hw
  | error e => simp [writeCmd, rejectWord, hb, hd]

theorem step_write_cmd {s : State} {w : Word} {rest : List Input}
    (h : s.inputs = .write s.params.regBase w :: rest) : step s = writeCmd w { s with inputs := rest } := by
  rw [step_cons s _ rest h]
  exact hostWrite_cmd w { s with inputs := rest }

theorem withFetchWord_encode (s : State) (i : Instr) :
    s.withFetchWord 32 (encode i).toNat =
      { s with inputs := .write s.params.regBase (encode i) :: s.inputs } := by
  rw [State.withFetchWord, Nat.mod_eq_of_lt (encode i).isLt, BitVec.ofNat_toNat, BitVec.setWidth_eq]
  rfl

/-- Settles O4: the word is rejected as ILLEGAL. -/
theorem illegalWordOnlyRecordsIllegal : Obligations.IllegalWordOnlyRecordsIllegal := by
  intro s w rest h hb hw
  rw [step_write_cmd h]
  exact writeCmd_illegal (s := { s with inputs := rest }) hb hw

/-- Settles O5: a write of a decoded word to `CMD` runs its command, and `withFetchWord` places such a write. -/
theorem stepRunsDecodedCommand : Obligations.StepRunsDecodedCommand := by
  refine ⟨fun s w i rest h hd => ?_, fun s i => ?_⟩
  · rw [step_write_cmd h, writeCmd_decoded hd]
  · rw [withFetchWord_encode, step_write_cmd rfl, writeCmd_decoded (decodeWord_encode i)]

/-! ### The frame of the atomic commands -/

theorem unitAbsent_iff (p : Config.Params) (i : Instr) : UnitAbsent p i ↔ unitPresent p i = false := by
  cases i <;> simp [UnitAbsent, unitPresent]

/-- Settles O19: a rejected command writes `STATUS` only, and an accepted one has its `Effect` and sets `DONE`. -/
theorem atomicCommandFrame : Obligations.AtomicCommandFrame := by
  intro i s t hext h
  refine ⟨fun a => by rw [(exec_memoryKept h).mem], ?_⟩
  simp only [unitAbsent_iff]
  rcases exec_next i s t h with ⟨hb, rfl⟩ | ⟨-, hu, rfl⟩ | ⟨-, -, hi, -⟩ | ⟨hb, hu, -, u, heff, rfl⟩
  · exact ⟨rfl, fun _ => rfl, fun _ => rfl, rfl, fun hidle => by simp [hb] at hidle, fun _ => ⟨rfl, rfl⟩⟩
  · exact ⟨rfl, fun _ => rfl, fun _ => rfl, rfl, fun _ hpres => absurd hu hpres, fun _ => ⟨rfl, rfl⟩⟩
  · exact absurd hi hext
  · have haccepted : ¬ (s.status.busy = true ∨ unitPresent s.params i = false) := by simp [hb, hu]
    cases heff with
    | nothing =>
      exact ⟨rfl, fun _ => rfl, fun _ => rfl, rfl, fun _ _ => ⟨rfl, rfl, rfl⟩, fun hrej => absurd hrej haccepted⟩
    | accumulates v hnop hfinal =>
      exact ⟨rfl, fun _ => rfl, fun hi => absurd hi (not_or.2 ⟨hnop, hfinal⟩), rfl, fun _ _ => ⟨rfl, rfl, rfl⟩,
        fun hrej => absurd hrej haccepted⟩
    | finishes hi =>
      exact ⟨rfl, fun hne => absurd hi hne, fun _ => rfl, rfl, fun _ _ => ⟨rfl, rfl, rfl⟩,
        fun hrej => absurd hrej haccepted⟩

end Sys2Proof.Machine
end

section
/-! The tables, the byte step, the four-byte fold and the checksum functions, and the commands `STEP1` and `STEP4`
(O10, O11, O52, O53, O55). -/
namespace Sys2Proof.Machine

/-! ### The tables -/

/-! Each entry is computed from that of the table before it. -/

@[simp] theorem t0_zero : t0 0#8 = 0#32 := by decide

@[simp] theorem t1_zero : t1 0#8 = 0#32 := by rw [t1, t0_zero]; decide

@[simp] theorem t2_zero : t2 0#8 = 0#32 := by rw [t2, t1_zero]; decide

@[simp] theorem t3_zero : t3 0#8 = 0#32 := by rw [t3, t2_zero]; decide

theorem t0_one : t0 1#8 = 0xF26B8303#32 := by decide

theorem t1_one : t1 1#8 = 0x13A29877#32 := by rw [t1, t0_one]; decide

theorem t2_one : t2 1#8 = 0xA541927E#32 := by rw [t2, t1_one]; decide

theorem t3_one : t3 1#8 = 0xDD45AAB8#32 := by rw [t3, t2_one]; decide

theorem t0_ones : t0 0xFF#8 = 0xAD7D5351#32 := by decide

theorem t1_ones : t1 0xFF#8 = 0xA3E32483#32 := by rw [t1, t0_ones]; decide

theorem t2_ones : t2 0xFF#8 = 0x91052BA8#32 := by rw [t2, t1_ones]; decide

theorem t3_ones : t3 0xFF#8 = 0x2803E842#32 := by rw [t3, t2_ones]; decide

/-- Settles O52: the reversal is checked bit by bit, the entries are computed above. -/
theorem tableCheckValues : Obligations.TableCheckValues :=
  ⟨by decide, rfl, by rw [t0_zero, t1_zero, t2_zero, t3_zero], by rw [t0_one, t1_one, t2_one, t3_one], by decide,
    by rw [t0_ones, t1_ones, t2_ones, t3_ones]⟩

theorem nextTable_t0 (b : Byte) : nextTable (t0 b) = t1 b := rfl

theorem nextTable_t1 (b : Byte) : nextTable (t1 b) = t2 b := rfl

theorem nextTable_t2 (b : Byte) : nextTable (t2 b) = t3 b := rfl

/-! ### The byte step -/

/-- What is XORed into the state before a byte step passes through it as one table entry does. -/
theorem s1_xor (x s : Word) (b : Byte) : s1 (x ^^^ s) b = nextTable x ^^^ s1 s b := by
  rw [s1_eq_nextTable, s1_eq_nextTable, BitVec.xor_assoc, nextTable_xor]

/-- A byte step on the part of a state from bit `k` on looks up the byte at bit `k`. -/
theorem s1_ushiftRight (s : Word) (k : Nat) (b : Byte) :
    s1 (s >>> k) b = t0 (s.extractLsb' k 8 ^^^ b) ^^^ s >>> (k + 8) := by
  rw [s1_eq, BitVec.shiftRight_add]
  rfl

theorem s1_eq_lowByte (s : Word) (b : Byte) : s1 s b = t0 (s.extractLsb' 0 8 ^^^ b) ^^^ s >>> 8 :=
  s1_ushiftRight s 0 b

theorem s1_zero (b : Byte) : s1 0#32 b = t0 b := by
  simp [s1_eq]

/-- A byte equal to the low byte of the state cancels it. -/
theorem s1_lowByte (s : Word) : s1 s (s.extractLsb' 0 8) = s >>> 8 := by
  simp [s1_eq_lowByte]

/-! ### The four-byte fold -/

theorem s4_self (s : Word) : s4 s s = 0#32 := by
  simp [s4]

/-- A first byte of 1 is looked up in `T3`. -/
theorem s4_firstByte_one : s4 0#32 1#32 = t3 1#8 := by
  simp [s4]

/-- A last byte of 1 is looked up in `T0`. -/
theorem s4_lastByte_one : s4 0#32 0x01000000#32 = t0 1#8 := by
  simp [s4]

/-- Four byte steps: each moves the entries looked up so far on to the next table, and the state itself has left
after the fourth. -/
theorem rawCRC_four (s : Word) (b₀ b₁ b₂ b₃ : Byte) :
    rawCRC s [b₀, b₁, b₂, b₃] =
      t3 (s.extractLsb' 0 8 ^^^ b₀) ^^^ t2 (s.extractLsb' 8 8 ^^^ b₁) ^^^ t1 (s.extractLsb' 16 8 ^^^ b₂) ^^^
        t0 (s.extractLsb' 24 8 ^^^ b₃) := by
  have hgone : s >>> 32 = 0#32 := BitVec.ushiftRight_eq_zero le_rfl
  simp only [rawCRC_cons, rawCRC_nil, s1_eq_lowByte s, s1_xor, s1_ushiftRight, nextTable_t0, nextTable_t1,
    nextTable_t2, hgone, BitVec.xor_zero, BitVec.xor_assoc]

/-- Settles O53: the fold looks up the four bytes of `s ^^^ w`, as four byte steps do (`rawCRC_four`). -/
theorem fourByteFoldIsFourByteSteps : Obligations.FourByteFoldIsFourByteSteps := by
  intro s w
  simp only [rawCRC_four, s4, BitVec.extractLsb'_xor]

/-! ### The checksum functions -/

theorem rawCRC_append (s : Word) (a b : List Byte) : rawCRC s (a ++ b) = rawCRC (rawCRC s a) b := by
  induction a generalizing s with
  | nil => rfl
  | cons x a ih => exact ih (s1 s x)

@[simp] theorem complement_complement (x : Word) : complement (complement x) = x := by
  rw [complement, complement, BitVec.xor_assoc, BitVec.xor_self, BitVec.xor_zero]

theorem extendCRC_nil (c : Word) : extendCRC c [] = c := by
  rw [extendCRC, rawCRC_nil, complement_complement]

/-- The complement that ends one extension is undone by the one that begins the next. -/
theorem extendCRC_extendCRC (c : Word) (a b : List Byte) :
    extendCRC (extendCRC c a) b = extendCRC c (a ++ b) := by
  simp only [extendCRC, complement_complement, rawCRC_append]

/-- Settles O55. -/
theorem checksumLaws : Obligations.ChecksumLaws :=
  ⟨rawCRC_append, extendCRC_nil, extendCRC_extendCRC⟩

/-! ### The commands -/

/-- An accepted atomic command that computes `ACC` from what clearing `DONE` leaves unchanged. -/
theorem atomic_setAcc_idle (i : Instr) (f : State → Word) {s : State} (hb : s.status.busy = false)
    (hu : unitPresent s.params i = true) (hf : f (clearDone s) = f s) :
    atomic i (fun s => setAcc (f s) s) s = .next { s with
      acc := zext64 (f s), status := { s.status with done := true } } := by
  rw [atomic_accepted i _ s hb hu, hf]
  rfl

theorem exec_step1_idle {s : State} (b : Byte) (hb : s.status.busy = false) :
    exec (.step1 b) s = .next { s with
      acc := zext64 (s1 s.acc32 b), status := { s.status with done := true } } :=
  (exec_step1 b s).trans (atomic_setAcc_idle _ (fun s => s1 s.acc32 b) hb rfl rfl)

theorem exec_step4_idle {s : State} (hb : s.status.busy = false) :
    exec .step4 s = .next { s with
      acc := zext64 (s4 s.acc32 s.din32), status := { s.status with done := true } } :=
  (exec_step4 s).trans (atomic_setAcc_idle _ (fun s => s4 s.acc32 s.din32) hb rfl rfl)

theorem leaves_step1 {s : State} {b : Byte} {v : Word} (hb : s.status.busy = false) (hv : s1 s.acc32 b = v) :
    Leaves (.step1 b) s (zext64 v) :=
  ⟨_, exec_step1_idle b hb, congrArg zext64 hv⟩

theorem leaves_step4 {s : State} {v : Word} (hb : s.status.busy = false) (hv : s4 s.acc32 s.din32 = v) :
    Leaves .step4 s (zext64 v) :=
  ⟨_, exec_step4_idle hb, congrArg zext64 hv⟩

/-- `ACC[31:8]`, as what the byte step leaves of `ACC[31:0]`. -/
theorem zext64_loHalf_ushiftRight (d : Dword) : zext64 (loHalf d >>> 8) = (d.extractLsb' 8 24).setWidth 64 := by
  apply BitVec.eq_of_toNat_eq
  simp only [zext64, loHalf, BitVec.toNat_setWidth, BitVec.toNat_ushiftRight, BitVec.extractLsb'_toNat,
    Nat.shiftRight_eq_div_pow]
  omega

/-- Settles O10: the word is the encoding (O2), a word with reserved bits set is no command word, and the corner
cases are those of the byte step. -/
theorem step1FoldsOneByte : Obligations.Step1FoldsOneByte := by
  refine ⟨fun w b => decodeWord_eq_ok_iff w (.step1 b), fun s w rest h hb _ hrsv => ?_, fun s b => ?_⟩
  · exact illegalWordOnlyRecordsIllegal s w rest h hb fun hw => hrsv ((isCommandWord_iff w).1 hw).1
  · refine ⟨exec_step1_idle b, exec_busy (.step1 b) s, fun hb hacc => ?_, fun hb hlow => ?_⟩
    · have hzero : s.acc32 = 0#32 := congrArg loHalf hacc
      exact ⟨leaves_step1 hb (v := 0#32) (by rw [hzero, s1_zero, t0_zero]),
        leaves_step1 hb (by rw [hzero, s1_zero])⟩
    · rw [← zext64_loHalf_ushiftRight]
      have hbyte : b = s.acc32.extractLsb' 0 8 := by
        rw [hlow]; apply BitVec.eq_of_toNat_eq; simp [State.acc32, loHalf]
      exact leaves_step1 hb (by rw [hbyte, s1_lowByte]; rfl)

/-- Bits 31:8 of a command word with the `OPC` of `STEP4` are 0. -/
theorem IsCommandWord.step4_high {w : Word} (hw : IsCommandWord w) (hopc : w.extractLsb' 0 8 = 0x11#8) :
    w.extractLsb' 8 24 = 0#24 := by
  obtain ⟨hrsv, -, himm⟩ := (isCommandWord_iff w).1 hw
  have hne : opcField w ≠ step1Opcode := by rw [opcField, hopc]; decide
  rw [eq_encode_of_fields (i := .step4) hrsv (himm.resolve_left hne) hopc]
  decide

/-- Settles O11: the word is the encoding (O2), a word with more bits set is no command word, and the corner cases
are those of the four-byte fold. -/
theorem step4FoldsFourBytes : Obligations.Step4FoldsFourBytes := by
  refine ⟨fun w => decodeWord_eq_ok_iff w .step4, fun s w rest h hb hopc hhigh => ?_, fun s => ?_⟩
  · exact illegalWordOnlyRecordsIllegal s w rest h hb fun hw => hhigh (hw.step4_high hopc)
  · refine ⟨exec_step4_idle, exec_busy .step4 s, fun hb hdin => ?_, fun hb hacc hdin => ?_,
      fun hb hacc hdin => ?_⟩
    · have hsame : s.din32 = s.acc32 := hdin
      exact leaves_step4 hb (v := 0#32) (by rw [hsame, s4_self])
    · have hfold : s4 s.acc32 s.din32 = s4 0#32 1#32 := congrArg₂ s4 (congrArg loHalf hacc) (congrArg loHalf hdin)
      exact leaves_step4 hb (hfold.trans (s4_firstByte_one.trans t3_one))
    · have hfold : s4 s.acc32 s.din32 = s4 0#32 0x01000000#32 :=
        congrArg₂ s4 (congrArg loHalf hacc) (congrArg loHalf hdin)
      exact leaves_step4 hb (hfold.trans (s4_lastByte_one.trans t0_one))

end Sys2Proof.Machine
end

section
/-! The word steps: that each of them is eight byte steps, and the commands `SWSTEP`, `CRC32C.W`, `CRC32C.D`, `NEON.D`
and `WSTEP` (O12 to O16, O54). -/
namespace Sys2Proof.Machine

/-! ### The word step -/

/-- A field of a field (`BitVec.extractLsb'_extractLsb'_of_le` has the outer one at bit 0 only). -/
theorem extractLsb'_extractLsb' {w : Nat} (x : BitVec w) (m k : Nat) {n l : Nat} (h : k + n ≤ l) :
    (x.extractLsb' m l).extractLsb' k n = x.extractLsb' (m + k) n := by
  ext i hi
  have hin : k + i < l := by omega
  simp [hin, Nat.add_assoc]

/-- The four implementations of the accelerated step are one function (41_word_intrinsic_step.md R153). -/
theorem wordStepReg_eq_crc32cDFn (sel : Sel) (s : State) : wordStepReg sel s = crc32cDFn s.acc32 s.din := by
  cases sel <;> rfl

/-- Settles O54: every selection makes two four-byte folds, and each of them is four byte steps (O53). -/
theorem everyWordStepIsEightByteSteps : Obligations.EveryWordStepIsEightByteSteps := by
  intro s sel
  rw [wordStepReg_eq_crc32cDFn, crc32cDFn, fourByteFoldIsFourByteSteps, fourByteFoldIsFourByteSteps, ← rawCRC_append]
  simp [extractLsb'_extractLsb', State.acc32, loHalf]

/-! ### What the commands do -/

/-- An idle engine without the unit of a command records UNAVAIL, whatever the command would compute. -/
theorem exec_unavail (i : Instr) {s : State} (hb : s.status.busy = false) (hu : unitPresent s.params i = false) :
    exec i s = .next (raiseError .unavail (clearDone s)) := by
  cases i with
  | crc32cW => rw [exec_crc32cW, atomic_unavail _ _ s hb hu]
  | crc32cD => rw [exec_crc32cD, atomic_unavail _ _ s hb hu]
  | neonD => rw [exec_neonD, atomic_unavail _ _ s hb hu]
  | _ => cases hu

/-- The two folds of `SWSTEP` are those of `CRC32C_D` on `DIN` (41_word_intrinsic_step.md R151, R158). -/
theorem exec_swstep_idle {s : State} (hb : s.status.busy = false) :
    exec .swstep s = .next { s with
      acc := zext64 (crc32cDFn s.acc32 s.din), status := { s.status with done := true } } :=
  (exec_swstep s).trans (atomic_setAcc_idle _ (fun s => crc32cDFn s.acc32 s.din) hb rfl rfl)

theorem exec_crc32cW_idle {s : State} (hb : s.status.busy = false) (hu : s.params.hw4 = true) :
    exec .crc32cW s = .next { s with
      acc := zext64 (s4 s.acc32 s.din32), status := { s.status with done := true } } :=
  (exec_crc32cW s).trans (atomic_setAcc_idle _ (fun s => s4 s.acc32 s.din32) hb hu rfl)

theorem exec_crc32cD_idle {s : State} (hb : s.status.busy = false) (hu : s.params.hw8 = true) :
    exec .crc32cD s = .next { s with
      acc := zext64 (crc32cDFn s.acc32 s.din), status := { s.status with done := true } } :=
  (exec_crc32cD s).trans (atomic_setAcc_idle _ (fun s => crc32cDFn s.acc32 s.din) hb hu rfl)

theorem exec_neonD_idle {s : State} (hb : s.status.busy = false) (hu : s.params.neon = true) :
    exec .neonD s = .next { s with
      acc := zext64 (crc32cDFn s.acc32 s.din), status := { s.status with done := true } } :=
  (exec_neonD s).trans (atomic_setAcc_idle _ (fun s => crc32cDFn s.acc32 s.din) hb hu rfl)

theorem exec_wstep_idle {s : State} (hb : s.status.busy = false) :
    exec .wstep s = .next { s with
      acc := zext64 (wordStepReg s.cap.sel s), status := { s.status with done := true } } :=
  (exec_wstep s).trans (atomic_setAcc_idle _ (fun s => wordStepReg s.cap.sel s) hb rfl
    (by simp only [wordStepReg_eq_crc32cDFn]; rfl))

/-! ### What the commands leave in `ACC` -/

/-- A command leaves one value only. -/
theorem leaves_iff {i : Instr} {s t : State} (h : exec i s = .next t) (v : Dword) : Leaves i s v ↔ t.acc = v := by
  simp [Leaves, h]

/-- Commands that answer with the same `ACC` leave the same values. -/
theorem leaves_congr {i j : Instr} {s t s' t' : State} (h : exec i s = .next t) (h' : exec j s' = .next t')
    (hacc : t.acc = t'.acc) (v : Dword) : Leaves i s v ↔ Leaves j s' v := by
  rw [leaves_iff h, leaves_iff h', hacc]

theorem crc32cDFn_zero : crc32cDFn 0#32 0#64 = 0#32 :=
  (congrArg (s4 · 0#32) (s4_self 0#32)).trans (s4_self 0#32)

/-- The first fold cancels a state of all ones, and the second looks up 0xFF in every table. -/
theorem crc32cDFn_ones : crc32cDFn 0xFFFFFFFF#32 0xFFFFFFFFFFFFFFFF#64 = 0xB798B438#32 := by
  have hfirst : s4 0xFFFFFFFF#32 0xFFFFFFFF#32 = 0#32 := s4_self _
  have hsecond : s4 0#32 0xFFFFFFFF#32 = t3 0xFF#8 ^^^ t2 0xFF#8 ^^^ t1 0xFF#8 ^^^ t0 0xFF#8 := by simp [s4]
  calc crc32cDFn 0xFFFFFFFF#32 0xFFFFFFFFFFFFFFFF#64
      = s4 (s4 0xFFFFFFFF#32 0xFFFFFFFF#32) 0xFFFFFFFF#32 := by simp [crc32cDFn]
    _ = 0xB798B438#32 := by rw [hfirst, hsecond, t0_ones, t1_ones, t2_ones, t3_ones]; decide

/-! ### The commands -/

/-- Settles O12: the corner case is `crc32cDFn_ones`. -/
theorem swstepFoldsTwoWords : Obligations.SwstepFoldsTwoWords := by
  refine ⟨fun w => decodeWord_eq_ok_iff w .swstep, fun s => ⟨exec_swstep_idle, exec_busy .swstep s, ?_⟩⟩
  intro hb hacc hdin
  rw [leaves_iff (exec_swstep_idle hb), State.acc32, hacc, hdin]
  exact congrArg zext64 crc32cDFn_ones

/-- Settles O13: `CRC32C.W` computes what `STEP4` computes. -/
theorem crc32cWordInstruction : Obligations.Crc32cWordInstruction := by
  refine ⟨fun w => decodeWord_eq_ok_iff w .crc32cW, fun s => ⟨exec_crc32cW_idle, exec_unavail .crc32cW,
    exec_busy .crc32cW s, fun hb hu hdin => ?_, fun hb hu => ?_⟩⟩
  · have hsame : s.din32 = s.acc32 := hdin
    rw [leaves_iff (exec_crc32cW_idle hb hu), hsame, s4_self]
    rfl
  · exact leaves_congr (exec_crc32cW_idle hb hu) (exec_step4_idle hb) rfl

/-- Settles O14: the second `STEP4` finds in `ACC[31:0]` the fold that the first one left there. -/
theorem crc32cDoubleInstruction : Obligations.Crc32cDoubleInstruction := by
  refine ⟨fun w => decodeWord_eq_ok_iff w .crc32cD, fun s => ⟨exec_crc32cD_idle, exec_unavail .crc32cD,
    exec_busy .crc32cD s, fun hb hu hdin hacc => ?_, fun hb hu => ⟨_, exec_step4_idle hb, ?_⟩⟩⟩
  · rw [leaves_iff (exec_crc32cD_idle hb hu), State.acc32, hacc, hdin]
    exact congrArg zext64 crc32cDFn_zero
  · refine leaves_congr (exec_crc32cD_idle hb hu) (exec_step4_idle hb) (congrArg zext64 ?_)
    exact (congrArg₂ s4 (loHalf_zext64 (s4 s.acc32 s.din32)) (loHalf_zext64 (hiHalf s.din))).symm

/-- Settles O15: `NEON.D` computes what `CRC32C.D` computes. -/
theorem neonDoubleInstruction : Obligations.NeonDoubleInstruction := by
  refine ⟨fun w => decodeWord_eq_ok_iff w .neonD, fun s => ⟨exec_neonD_idle, exec_unavail .neonD,
    exec_busy .neonD s, fun hb hu hdin hacc => ?_, fun hb hu hu8 => ?_⟩⟩
  · rw [leaves_iff (exec_neonD_idle hb hu), State.acc32, hacc, hdin]
    exact congrArg zext64 crc32cDFn_zero
  · exact leaves_congr (exec_neonD_idle hb hu) (exec_crc32cD_idle hb hu8) rfl

/-- Settles O16: the rule's four cases are those of the word step on `DIN`. -/
theorem wstepRunsTheSelectedStep : Obligations.WstepRunsTheSelectedStep := by
  refine ⟨fun w => decodeWord_eq_ok_iff w .wstep, fun s => ⟨fun hb => ?_, exec_busy .wstep s⟩⟩
  rw [exec_wstep_idle hb]
  cases s.cap.sel <;> rfl

end Sys2Proof.Machine
end

section
/-! What each micro-step of the alignment driver does to the state when its read is answered (O37 to O41). -/
namespace Sys2Proof.Machine

/-! ### Word steps read and fold 8 bytes -/

/-- Places that answer a read with data hold bytes. -/
theorem exists_bytes_of_memBytes {s : State} {a n : Nat} {xs : List Byte} (h : s.memBytes a n = .data xs) :
    ∃ bs, Memory.bytes s.mem a n = some bs := by
  rw [← Option.ne_none_iff_exists', ne_eq, ← busBytes_none_iff, ((memBytes_data_iff ..).1 h).2]
  nofun

/-- Two reads, one behind the other, are one read of both ranges. -/
theorem memBytes_append {s : State} {a n k : Nat} {xs ys : List Byte} (hxs : s.memBytes a n = .data xs)
    (hys : s.memBytes (a + n) k = .data ys) : s.memBytes a (n + k) = .data (xs ++ ys) := by
  cases hr : s.memBytes a (n + k) with
  | data zs =>
    obtain ⟨xs', ys', hxs', hys', rfl⟩ := memBytes_split s a n k zs hr
    cases hxs.symm.trans hxs'
    cases hys.symm.trans hys'
    rfl
  | sideEffect =>
    rw [memBytes_sideEffect_iff, sideEffectIn_append, ((memBytes_data_iff ..).1 hxs).1,
      ((memBytes_data_iff ..).1 hys).1] at hr
    cases hr
  | busError =>
    obtain ⟨bs, hbs⟩ := exists_bytes_of_memBytes hxs
    obtain ⟨cs, hcs⟩ := exists_bytes_of_memBytes hys
    rw [memBytes_busError_iff, bytes_append _ _ _ _ _ _ hbs hcs] at hr
    cases hr.2

theorem littleEndian_append (xs ys : List Byte) :
    littleEndian (xs ++ ys) = littleEndian xs + 2 ^ (8 * xs.length) * littleEndian ys := by
  induction xs with
  | nil => simp [littleEndian]
  | cons b xs ih =>
    rw [List.cons_append, littleEndian, ih, littleEndian, List.length_cons, Nat.mul_succ, pow_add]
    ring

/-- The four-byte fold of a word that was read is four byte steps (40_table_lookup_datapath.md R127). -/
theorem s4_littleEndian (s : Word) {bytes : List Byte} (h : bytes.length = 4) :
    s4 s (BitVec.ofNat 32 (littleEndian bytes)) = rawCRC s bytes := by
  obtain ⟨b₀, b₁, b₂, b₃, rfl⟩ := List.length_eq_four.1 h
  have h₀ := b₀.isLt
  have h₁ := b₁.isLt
  have h₂ := b₂.isLt
  have h₃ := b₃.isLt
  have hbyte : ∀ k (b : Byte), littleEndian [b₀, b₁, b₂, b₃] / 2 ^ k % 256 = b.toNat →
      (BitVec.ofNat 32 (littleEndian [b₀, b₁, b₂, b₃])).extractLsb' k 8 = b := by
    intro k b hb
    have hlt : littleEndian [b₀, b₁, b₂, b₃] < 2 ^ 32 := littleEndian_lt _
    apply BitVec.eq_of_toNat_eq
    rw [BitVec.extractLsb'_toNat, BitVec.toNat_ofNat, Nat.shiftRight_eq_div_pow, Nat.mod_eq_of_lt hlt]
    exact hb
  rw [fourByteFoldIsFourByteSteps, hbyte 0 b₀, hbyte 8 b₁, hbyte 16 b₂, hbyte 24 b₃] <;>
    simp only [littleEndian] <;> omega

/-- The eight-byte instruction on a doubleword that was read is eight byte steps (41_word_intrinsic_step.md R153). -/
theorem crc32cDFn_littleEndian (s : Word) {bytes : List Byte} (h : bytes.length = 8) :
    crc32cDFn s (BitVec.ofNat 64 (littleEndian bytes)) = rawCRC s bytes := by
  obtain ⟨xs, ys, rfl, hx⟩ : ∃ xs ys, bytes = xs ++ ys ∧ xs.length = 4 :=
    ⟨bytes.take 4, bytes.drop 4, (List.take_append_drop 4 bytes).symm, by simp [h]⟩
  have hy : ys.length = 4 := by simp [hx] at h; omega
  have hxlt := littleEndian_lt xs
  have hylt := littleEndian_lt ys
  have hword : littleEndian (xs ++ ys) = littleEndian xs + 2 ^ 32 * littleEndian ys := by
    rw [littleEndian_append, hx]
  rw [hx] at hxlt
  rw [hy] at hylt
  have hhalf : ∀ k n, littleEndian (xs ++ ys) / 2 ^ k % 2 ^ 32 = n →
      (BitVec.ofNat 64 (littleEndian (xs ++ ys))).extractLsb' k 32 = BitVec.ofNat 32 n := by
    rintro k n rfl
    have hlt : littleEndian (xs ++ ys) < 2 ^ 64 := by omega
    rw [extractLsb'_eq_ofNat, BitVec.toNat_ofNat, Nat.mod_eq_of_lt hlt]
    exact BitVec.eq_of_toNat_eq (by simp)
  rw [crc32cDFn, hhalf 0 (littleEndian xs) (by omega), hhalf 32 (littleEndian ys) (by omega), s4_littleEndian s hx,
    s4_littleEndian _ hy, rawCRC_append]

/-- Two 4-byte reads, each folded as a word, are one read and one fold of 8 bytes. -/
theorem twoWordReads_data_iff (s : State) (v : Word) :
    ((s.memRead s.curNat 4).andThen fun lo =>
        (s.memRead (s.curNat + 4) 4).map fun hi => s4 (s4 s.acc32 lo) hi) = .data v ↔
      ∃ bytes, s.memBytes s.curNat 8 = .data bytes ∧ rawCRC s.acc32 bytes = v := by
  have hfold : ∀ xs ys, s.memBytes s.curNat 4 = .data xs → s.memBytes (s.curNat + 4) 4 = .data ys →
      s4 (s4 s.acc32 (BitVec.ofNat 32 (littleEndian xs))) (BitVec.ofNat 32 (littleEndian ys)) =
        rawCRC s.acc32 (xs ++ ys) := fun xs ys hxs hys => by
    rw [s4_littleEndian _ (memBytes_length _ _ _ _ hxs), s4_littleEndian _ (memBytes_length _ _ _ _ hys),
      rawCRC_append]
  simp only [andThen_data_iff, map_data_iff]
  constructor
  · rintro ⟨lo, hlo, hi, hhi, rfl⟩
    obtain ⟨xs, hxs, rfl⟩ := (memRead_data_iff ..).1 hlo
    obtain ⟨ys, hys, rfl⟩ := (memRead_data_iff ..).1 hhi
    exact ⟨xs ++ ys, memBytes_append hxs hys, (hfold xs ys hxs hys).symm⟩
  · rintro ⟨bytes, hbytes, rfl⟩
    obtain ⟨xs, ys, hxs, hys, rfl⟩ := memBytes_split s s.curNat 4 4 bytes hbytes
    exact ⟨_, (memRead_data_iff ..).2 ⟨xs, hxs, rfl⟩, _, (memRead_data_iff ..).2 ⟨ys, hys, rfl⟩,
      hfold xs ys hxs hys⟩

/-- One 8-byte read, folded as a doubleword. -/
theorem doublewordRead_data_iff (s : State) (v : Word) :
    ((s.memRead s.curNat 8).map fun d => crc32cDFn s.acc32 d) = .data v ↔
      ∃ bytes, s.memBytes s.curNat 8 = .data bytes ∧ rawCRC s.acc32 bytes = v := by
  rw [map_data_iff]
  constructor
  · rintro ⟨d, hd, rfl⟩
    obtain ⟨bytes, hbytes, rfl⟩ := (memRead_data_iff ..).1 hd
    exact ⟨bytes, hbytes, (crc32cDFn_littleEndian _ (memBytes_length _ _ _ _ hbytes)).symm⟩
  · rintro ⟨bytes, hbytes, rfl⟩
    exact ⟨_, (memRead_data_iff ..).2 ⟨bytes, hbytes, rfl⟩,
      crc32cDFn_littleEndian _ (memBytes_length _ _ _ _ hbytes)⟩

/-- Every word step reads the 8 bytes at `CUR` and folds them as the byte steps would, whatever the selection
(41_word_intrinsic_step.md R153, R160). -/
theorem wordStepAcc_data_iff (sel : Sel) (s : State) (v : Word) :
    wordStepAcc sel s = .data v ↔ ∃ bytes, s.memBytes s.curNat 8 = .data bytes ∧ rawCRC s.acc32 bytes = v := by
  cases sel with
  | sw | hw4 => exact twoWordReads_data_iff s v
  | hw8 | neon => exact doublewordRead_data_iff s v

/-! ### The bytes consumed -/

/-- The state after `n` bytes at `CUR` are folded to `v`, within the address space. -/
theorem advance_setAcc_eq {s : State} (v : Word) {n : Nat} (h : s.curNat + n ≤ 2 ^ s.params.addrW) :
    advance n (setAcc v s) = { s with acc := v.setWidth 64, cur := BitVec.ofNat 65 (s.curNat + n) } := by
  rw [← fitPosition_eq_ofNat _ _ h]
  rfl

theorem byteStepMem_eq {s : State} {b : Byte} (hb : s.memBytes s.curNat 1 = .data [b])
    (h : s.curNat + 1 ≤ 2 ^ s.params.addrW) :
    byteStepMem s = .data { s with
      acc := (s1 s.acc32 b).setWidth 64, cur := BitVec.ofNat 65 (s.curNat + 1) } := by
  rw [byteStepMem_of_data s b hb, advance_setAcc_eq _ h]

theorem wordStepMem_of_data (sel : Sel) {s : State} {bytes : List Byte} (h : s.memBytes s.curNat 8 = .data bytes) :
    wordStepMem sel s = .data (advance 8 (setAcc (rawCRC s.acc32 bytes) s)) := by
  rw [wordStepMem, (wordStepAcc_data_iff sel s _).2 ⟨bytes, h, rfl⟩]
  rfl

/-- Two word steps are one read and one fold of 16 bytes. -/
theorem wordStepMem_twice (sel : Sel) {s : State} {bytes : List Byte} (hw : s.params.addrW ≤ 64)
    (h : s.curNat + 16 ≤ 2 ^ s.params.addrW) (hbytes : s.memBytes s.curNat 16 = .data bytes) :
    (wordStepMem sel s).andThen (wordStepMem sel) = .data { s with
      acc := (rawCRC s.acc32 bytes).setWidth 64, cur := BitVec.ofNat 65 (s.curNat + 16) } := by
  obtain ⟨xs, ys, hxs, hys, rfl⟩ := memBytes_split s s.curNat 8 8 bytes hbytes
  have hcur := advance_setAcc_curNat s (rawCRC s.acc32 xs) 8 hw (by omega)
  have hnext : (advance 8 (setAcc (rawCRC s.acc32 xs) s)).memBytes
      (advance 8 (setAcc (rawCRC s.acc32 xs) s)).curNat 8 = .data ys := by
    rw [hcur, advance_setAcc_memBytes, hys]
  have hacc : (advance 8 (setAcc (rawCRC s.acc32 xs) s)).acc32 = rawCRC s.acc32 xs := loHalf_zext64 _
  rw [wordStepMem_of_data sel hxs, ReadResult.andThen, wordStepMem_of_data sel hnext,
    advance_setAcc_eq _ (by rw [hcur]; simpa using h), hcur, hacc, ← rawCRC_append]
  rfl

/-! ### The micro-steps -/

/-- Settles O41: the micro-step reads nothing. -/
theorem finalMicroStep : Obligations.FinalMicroStep := by
  intro s hi hp
  rw [step_nil s hi, microStep, hp]
  rfl

/-- Settles O37: the byte step reads one byte at `CUR`, which is before `END`. -/
theorem alignMicroStep : Obligations.AlignMicroStep := by
  intro s hi hp _ hce htop
  have hstep : step s = microAlign s := by rw [step_nil s hi, microStep, hp]
  rw [hstep]
  refine ⟨fun hc => if_pos hc, fun b hc hb => ?_⟩
  rw [microAlign, if_neg hc, byteStepMem_eq hb (by omega)]
  rfl

/-- Settles O38: as in ALIGN (O37), without the test for an aligned place. -/
theorem tailMicroStep : Obligations.TailMicroStep := by
  intro s hi hp _ hce htop
  have hstep : step s = microTail s := by rw [step_nil s hi, microStep, hp]
  rw [hstep]
  refine ⟨fun hc => if_neg (not_not.2 hc), fun b hc hb => ?_⟩
  rw [microTail, if_pos hc, byteStepMem_eq hb (by omega)]
  rfl

theorem afterBatch_eq (p : Config.Params) : afterBatch p = if p.align = .align4 then .align else .g16 := by
  unfold afterBatch
  cases p.align <;> rfl

/-- Settles O39: what the batch unit reads ends at `END` or before it, so `CUR` is not narrowed. -/
theorem batchMicroStep : Obligations.BatchMicroStep := by
  rintro s n bytes hi hp hwf hce htop rfl hbytes
  have hn : batchPrefix s ≤ s.remaining := batchPrefix_le s
  have hfit : s.curNat + batchPrefix s ≤ 2 ^ s.params.addrW := by unfold State.remaining at hn; omega
  have hcur := advance_setAcc_curNat s (batchCRC s.acc32 bytes) (batchPrefix s) hwf.2.1 hfit
  have hread : s.memBytes s.curNat (batchPrefix s) = .data bytes := hbytes
  rw [step_nil s hi, microStep, hp]
  simp only [microBatch, hread, ReadResult.map, finishReads, hcur, afterBatch_eq]
  rw [advance_setAcc_eq _ hfit]
  rfl

theorem step_g16 {s : State} (hi : s.inputs = []) (hp : s.phase = .g16) : step s = microG16 s := by
  rw [step_nil s hi, microStep, hp]

theorem step_g8 {s : State} (hi : s.inputs = []) (hp : s.phase = .g8) : step s = microG8 s := by
  rw [step_nil s hi, microStep, hp]

/-- Settles O40: each word step folds the 8 bytes at `CUR` as the byte steps would. -/
theorem wordMicroStepsFoldTheirBytes : Obligations.WordMicroStepsFoldTheirBytes := by
  intro s bytes hi hwf hce htop
  refine ⟨fun hp hn => ?_, fun hp hn => ?_, fun hp hn hbytes => ?_, fun hp hn hbytes => ?_⟩
  · exact (step_g16 hi hp).trans (if_neg (not_le.2 hn))
  · exact (step_g8 hi hp).trans (if_neg (not_le.2 hn))
  · have hrem : 16 ≤ s.remaining := hn
    rw [step_g16 hi hp, microG16, if_pos hrem, wordStepMem_twice _ hwf.2.1 (by omega) hbytes]
    rfl
  · have hrem : 8 ≤ s.remaining := hn
    rw [step_g8 hi hp, microG8, if_pos hrem, wordStepMem_of_data _ hbytes, advance_setAcc_eq _ (by omega)]
    rfl

end Sys2Proof.Machine
end

section
/-! The control commands, the acceptance of `EXTEND`, the engine's turn and the known vectors (O6 to O9, O17, O18, O20,
O56). -/
namespace Sys2Proof.Machine

/-! ### `NOP`, `INIT` and `FINAL` -/

theorem exec_nop_idle {s : State} (hb : s.status.busy = false) :
    exec .nop s = .next { s with status := { s.status with done := true } } :=
  (exec_nop s).trans (atomic_accepted _ _ s hb rfl)

theorem exec_init_idle {s : State} (hb : s.status.busy = false) :
    exec .init s = .next { s with
      acc := zext64 (complement s.crcIn), status := { s.status with done := true } } :=
  (exec_init s).trans (atomic_setAcc_idle _ (fun s => complement s.crcIn) hb rfl rfl)

theorem exec_final_idle {s : State} (hb : s.status.busy = false) :
    exec .final s = .next { s with
      result := complement s.acc32, status := { s.status with done := true } } :=
  (exec_final s).trans (atomic_accepted _ _ s hb rfl)

/-- Settles O7: a `STATUS` of 0 is idle, and setting `DONE` adds 2 to its number. -/
theorem nopOnlySetsDone : Obligations.NopOnlySetsDone := by
  refine ⟨fun w => decodeWord_eq_ok_iff w .nop, fun s => ⟨exec_nop_idle, exec_busy .nop s, fun h0 => ?_⟩⟩
  have hbits : s.status.busy.toNat = 0 ∧ statusNumber { s.status with done := true } = 2 := by
    simp only [statusNumber, Bool.toNat_true] at h0 ⊢
    omega
  obtain ⟨hbusy, hnum⟩ := hbits
  refine ⟨_, exec_nop_idle (Bool.toNat_eq_zero.1 hbusy), ?_⟩
  rw [status_toWord_eq_ofNat, hnum]

theorem leaves_init {s : State} {c : Word} (hb : s.status.busy = false) (hc : s.crcIn = c) :
    Leaves .init s (zext64 (complement c)) :=
  ⟨_, exec_init_idle hb, by rw [hc]⟩

/-- Settles O8: the corner cases are complements of given words. -/
theorem initComplementsCrcIn : Obligations.InitComplementsCrcIn :=
  ⟨fun w => decodeWord_eq_ok_iff w .init, fun s =>
    ⟨exec_init_idle, exec_busy .init s, leaves_init, leaves_init, leaves_init⟩⟩

/-- Settles O9: the worked example undoes that of `INIT`. -/
theorem finalComplementsAcc : Obligations.FinalComplementsAcc := by
  refine ⟨fun w => decodeWord_eq_ok_iff w .final, fun s => ⟨exec_final_idle, exec_busy .final s, fun hb hacc => ?_⟩⟩
  refine ⟨_, exec_final_idle hb, ?_, rfl⟩
  simp only [State.acc32, hacc]
  decide

/-! ### The acceptance of `EXTEND` -/

theorem exec_extend_idle {s : State} (hb : s.status.busy = false) :
    exec .extend s = .next (acceptExtend (clearDone s)) :=
  (exec_extend s).trans (accept_accepted _ _ s hb rfl)

theorem acceptExtend_rejected {s : State} (h : 2 ^ s.params.addrW < s.addr.toNat + s.len.toNat) :
    acceptExtend s = raiseError .range s :=
  if_pos h

theorem acceptExtend_accepted {s : State} (h : s.addr.toNat + s.len.toNat ≤ 2 ^ s.params.addrW) :
    acceptExtend s = beginExtend s :=
  if_neg (not_lt.2 h)

/-- Settles O17: the acceptance check fails. -/
theorem extendPastTheTopIsRejected : Obligations.ExtendPastTheTopIsRejected := by
  intro s hb htop
  rw [exec_extend_idle hb, acceptExtend_rejected (s := clearDone s) htop]
  rfl

theorem firstPhase_eq (s : State) :
    firstPhase s = if s.cap.batchEn = true ∧ s.params.batchMin ≤ s.len.toNat then .batch
      else if s.params.align = .align4 then .align else .g16 := by
  rw [firstPhase, afterBatch_eq]

/-- The state in which an `EXTEND` of a buffer within the address space starts. -/
theorem exec_extend_accepted {s : State} (hb : s.status.busy = false)
    (htop : s.addr.toNat + s.len.toNat ≤ 2 ^ s.params.addrW) :
    exec .extend s = .next { s with
      acc := zext64 (complement s.crcIn)
      cur := BitVec.ofNat 65 s.addr.toNat
      endPos := BitVec.ofNat 65 (s.addr.toNat + s.len.toNat)
      capl := s.cap
      status := { s.status with busy := true, done := false }
      phase := firstPhase s
      touched := [] } := by
  rw [exec_extend_idle hb, acceptExtend_accepted (s := clearDone s) htop,
    ← fitPosition_eq_ofNat _ _ ((Nat.le_add_right _ _).trans htop), ← fitPosition_eq_ofNat _ _ htop]
  rfl

/-- Settles O18: the acceptance check holds, and `CUR` and `END` are not narrowed. -/
theorem extendIsAccepted : Obligations.ExtendIsAccepted := by
  refine ⟨fun w => decodeWord_eq_ok_iff w .extend, fun s => ⟨exec_busy .extend s, fun _ hb htop => ⟨[], ?_⟩⟩⟩
  rw [exec_extend_accepted hb htop, firstPhase_eq]
  rfl

theorem acceptExtend_frame (s : State) :
    acceptExtend s = { s with
      acc := (acceptExtend s).acc, cur := (acceptExtend s).cur, endPos := (acceptExtend s).endPos
      capl := (acceptExtend s).capl, phase := (acceptExtend s).phase, status := (acceptExtend s).status
      touched := (acceptExtend s).touched } := by
  unfold acceptExtend
  split <;> rfl

/-- Settles O20: a rejection writes `STATUS` only, and `acceptExtend` writes the seven fields named. -/
theorem extendCommandFrame : Obligations.ExtendCommandFrame := by
  intro s t h
  refine ⟨fun a => by rw [(exec_memoryKept h).mem], ?_⟩
  rcases exec_next .extend s t h with ⟨-, rfl⟩ | ⟨-, -, rfl⟩ | ⟨-, -, -, rfl⟩ | ⟨-, -, hne, -⟩
  · rfl
  · rfl
  · exact acceptExtend_frame (clearDone s)
  · exact absurd rfl hne

/-! ### The engine's turn -/

/-- Settles O6: the turn is a micro-step, and that of an idle engine does nothing. -/
theorem engineTakesItsTurn : Obligations.EngineTakesItsTurn := by
  refine fun s rest => ⟨step_nil s, step_cons s .engine rest, fun hi hp => ?_⟩
  rw [step_nil s hi, microStep, hp]

/-! ### The known vectors -/

/-- Settles O56: each checksum is computed. -/
theorem knownVectors : Obligations.KnownVectors :=
  ⟨extendCRC_nil _, by decide +kernel, by decide +kernel, by decide +kernel⟩

end Sys2Proof.Machine
end

section
/-! The law of the accumulator, the phase graph, and the `RESULT` of an `EXTEND` that completes, whatever the host does
meanwhile (O42, O49, O58). -/
namespace Sys2Proof.Machine

/-! ### The engine's turn -/

/-- `t` stands `bytes` further in the buffer than `s`: they were read at `CUR` and folded into the accumulator. -/
structure Consumed (s t : State) (bytes : List Byte) : Prop where
  read : s.memBytes s.curNat bytes.length = .data bytes
  cur : t.curNat = s.curNat + bytes.length
  acc : t.acc32 = rawCRC s.acc32 bytes
  touched : t.touched = s.touched

theorem Consumed.nil {s t : State} (hcur : t.cur = s.cur) (hacc : t.acc = s.acc) (ht : t.touched = s.touched) :
    Consumed s t [] :=
  ⟨(memBytes_data_iff ..).2 ⟨rfl, rfl⟩, congrArg BitVec.toNat hcur, congrArg loHalf hacc, ht⟩

/-- Bytes of the buffer read at `CUR`, folded and passed over are consumed. -/
theorem Inv.consumed {s : State} (h : Inv s) (hb : s.status.busy = true) {n : Nat} {bytes : List Byte}
    (hread : s.memBytes s.curNat n = .data bytes) (hn : n ≤ s.remaining) :
    Consumed s (advance n (Machine.setAcc (rawCRC s.acc32 bytes) s)) bytes := by
  obtain rfl := memBytes_length s s.curNat n bytes hread
  exact ⟨hread, (h.driving hb).consumed_curNat h.standing _ hn, setAcc_acc32 _ s, rfl⟩

theorem Consumed.trans {s t u : State} {xs ys : List Byte} (h : Consumed s t xs) (h' : Consumed t u ys)
    (hmem : ∀ a n, t.memBytes a n = s.memBytes a n) : Consumed s u (xs ++ ys) where
  read := by
    rw [List.length_append]
    exact memBytes_append h.read (by rw [← h.cur, ← hmem, h'.read])
  cur := by rw [h'.cur, h.cur, List.length_append, Nat.add_assoc]
  acc := by rw [h'.acc, h.acc, rawCRC_append]
  touched := h'.touched.trans h.touched

/-- While busy the engine's turn consumes bytes of the buffer, none where it only changes the phase. -/
theorem Inv.microStep_consumed {s t : State} (h : Inv s) (ht : Machine.microStep s = .next t)
    (hb : s.status.busy = true) (hb' : t.status.busy = true) : ∃ bytes, Consumed s t bytes := by
  rcases microStep_next s t ht with ⟨-, rfl⟩ | ⟨-, -, rfl⟩ | ⟨-, bytes, hread, rfl⟩ | ⟨-, -, rfl⟩ |
    ⟨-, -, rfl⟩ | ⟨-, -, rfl⟩ | ⟨-, -, rfl⟩ | ⟨hp, b, hread, rfl⟩ | ⟨hp, hc, v, w, hv, hw, rfl⟩ |
    ⟨-, hc, v, hv, rfl⟩ | ⟨-, rfl⟩
  · exact ⟨[], .nil rfl rfl rfl⟩
  · cases hb'
  · exact ⟨bytes, { h.consumed hb hread (batchPrefix_le s) with }⟩
  iterate 4
    · exact ⟨[], .nil rfl rfl rfl⟩
  · have hne : s.curNat ≠ s.endNat := by
      rcases hp with ⟨-, hc⟩ | ⟨-, hc⟩
      · exact (not_or.1 hc).2
      · exact hc
    exact ⟨[b], h.consumed hb hread (h.remaining_pos hb hne)⟩
  · obtain ⟨hmid, hrem⟩ := h.firstWord hp hc v
    obtain ⟨xs, hxs, rfl⟩ := (wordStepAcc_data_iff _ _ _).1 hv
    obtain ⟨ys, hys, rfl⟩ := (wordStepAcc_data_iff _ _ _).1 hw
    exact ⟨xs ++ ys, (h.consumed hb hxs (by omega)).trans (hmid.consumed hb hys hrem)
      (advance_setAcc_memBytes s _ 8)⟩
  · obtain ⟨bytes, hread, rfl⟩ := (wordStepAcc_data_iff _ _ _).1 hv
    exact ⟨bytes, h.consumed hb hread hc⟩
  · cases hb'

/-! ### The other inputs while busy -/

/-- No byte of the buffer of the `EXTEND` in progress in `s` is stored to between `s` and `t`. -/
structure BufferKept (s t : State) : Prop where
  touched : s.touched = []
  buffer : ∀ x, s.addr.toNat ≤ x → x < s.addr.toNat + s.len.toNat → Memory.lookup t.mem x = Memory.lookup s.mem x

theorem BufferKept.of_mem {s t : State} (ht : s.touched = []) (hmem : t.mem = s.mem) : BufferKept s t :=
  ⟨ht, fun x _ _ => by rw [hmem]⟩

/-- What an input that is neither the engine's turn nor a reset leaves of an `EXTEND` in progress, its phase and its
accumulator too: a store that puts a free draw into `ACC` leaves its place touched. -/
structure ProgressKept (s t : State) : Prop extends ExtendKept s t where
  phase : t.phase = s.phase
  untouched : t.touched = [] → BufferKept s t ∧ t.acc = s.acc

theorem ProgressKept.of_eq {s t : State} (h : ExtendKept s t) (hphase : t.phase = s.phase)
    (htouched : t.touched = s.touched) (hmem : t.mem = s.mem) (hacc : t.acc = s.acc) : ProgressKept s t :=
  { h with
    phase := hphase
    untouched := fun ht => ⟨.of_mem (htouched.symm.trans ht) hmem, hacc⟩ }

theorem ProgressKept.of_withInputs {s t : State} {rest : List Input}
    (h : ProgressKept { s with inputs := rest } t) : ProgressKept s t :=
  { h with
    untouched := fun ht =>
      have ⟨hkept, hacc⟩ := h.untouched ht
      ⟨{ hkept with }, hacc⟩ }

theorem Written.progressKept {s t : State} (h : Written s t) (hb : s.status.busy = true) : ProgressKept s t := by
  have hk := h.extendKept hb
  cases h with
  | ignored | rejected | status => exact .of_eq hk rfl rfl rfl rfl
  | cap _ hi | crcIn _ hi | addr _ hi | len _ hi | din _ hi | acc _ hi => simp [hb] at hi

theorem hostWrite_progressKept {s t : State} (addr : Nat) (v : Word) (h : hostWrite addr v s = .next t)
    (hb : s.status.busy = true) : ProgressKept s t := by
  rcases hostWrite_next addr v s t h with ⟨-, hw⟩ | ⟨r, -, -, rfl⟩ | ⟨-, rfl⟩
  · rw [writeCmd_busy v s hb, outcome_next_inj] at hw
    subst hw
    exact .of_eq { ExtendKept.refl s with } rfl rfl rfl rfl
  · exact (writeReg_written r v s).progressKept hb
  · exact .of_eq (.refl _) rfl rfl rfl rfl

theorem hostPoll_progressKept (s : State) : ProgressKept s (hostPoll s) := by
  refine .of_eq (hostPoll_extendKept s) ?_ ?_ ?_ ?_ <;> rw [hostPoll_eq] <;> split <;> rfl

theorem storeByte_progressKept {s t : State} (a : Nat) (b : Byte) (h : storeByte a b s = .next t)
    (hb : s.status.busy = true) : ProgressKept s t := by
  have hk := storeByte_extendKept a b h
  obtain ⟨-, -, ⟨-, -, -, rfl⟩ | ⟨hout, rfl⟩⟩ := storeByte_next a b s t h
  · refine { hk with phase := rfl, untouched := fun ht => ?_ }
    have hmem : a ∈ (if a ∈ s.touched then s.touched else a :: s.touched) := by
      split
      · assumption
      · exact List.mem_cons_self
    simp [show (if a ∈ s.touched then s.touched else a :: s.touched) = [] from ht] at hmem
  · refine { hk with phase := rfl, untouched := fun ht => ⟨⟨ht, fun x hlo hhi => ?_⟩, rfl⟩ }
    refine lookup_insert_other s.mem a x b ?_
    rintro rfl
    exact hout ⟨hb, hlo, hhi⟩

/-- What a step from a busy state is when it is no reset: the engine's turn, or an input that leaves the `EXTEND` in
progress where it is. -/
theorem step_busy_progress {s t : State} (h : step s = .next t) (hb : s.status.busy = true)
    (hr : s.inputs.head? ≠ some .reset) :
    (∃ rest, microStep { s with inputs := rest } = .next t) ∨ ProgressKept s t := by
  rcases step_next s t h with ⟨rest, -, hm⟩ | ⟨addr, v, rest, -, hw⟩ | ⟨addr, rest, -, hrd⟩ |
    ⟨rest, -, rfl⟩ | ⟨a, b, rest, -, hs⟩ | ⟨rest, hi, -⟩
  · exact .inl ⟨rest, hm⟩
  · exact .inr (hostWrite_progressKept addr v hw hb).of_withInputs
  · obtain ⟨v, d, rfl⟩ := hostRead_next addr _ t hrd
    exact .inr (.of_eq { ExtendKept.refl s with } rfl rfl rfl rfl)
  · exact .inr (hostPoll_progressKept _).of_withInputs
  · exact .inr (storeByte_progressKept a b hs hb).of_withInputs
  · simp [hi] at hr

/-! ### The beginning of an `EXTEND` -/

theorem Effect.status {i : Instr} {s t : State} (h : Effect i s t) : t.status = s.status := by
  cases h <;> rfl

/-- A command that leaves an idle engine busy is an accepted `EXTEND`. -/
theorem exec_begins {i : Instr} {s t : State} (h : exec i s = .next t) (hb : s.status.busy = false)
    (hb' : t.status.busy = true) : t = beginExtend (clearDone s) := by
  rcases exec_next i s t h with ⟨-, rfl⟩ | ⟨-, -, rfl⟩ | ⟨-, -, -, rfl⟩ | ⟨-, -, -, u, hu, rfl⟩
  · exact absurd (hb.symm.trans hb') nofun
  · exact absurd (hb.symm.trans hb') nofun
  · unfold acceptExtend at hb' ⊢
    split at hb'
    next => exact absurd (hb.symm.trans hb') nofun
    next htop => rw [if_neg htop]
  · have hu' : u.status.busy = s.status.busy := by rw [hu.status]; rfl
    exact absurd (hb.symm.trans (hu'.symm.trans hb')) nofun

theorem writeCmd_begins {w : Word} {s t : State} (h : writeCmd w s = .next t) (hb : s.status.busy = false)
    (hb' : t.status.busy = true) : t = beginExtend (clearDone s) := by
  rcases writeCmd_next w s t h with ⟨-, rfl⟩ | ⟨-, -, rfl⟩ | ⟨-, i, -, hi⟩
  · exact absurd (hb.symm.trans hb') nofun
  · exact absurd (hb.symm.trans hb') nofun
  · exact exec_begins hi hb hb'

theorem Written.busy {s t : State} (h : Written s t) : t.status.busy = s.status.busy := by
  cases h with
  | status v => exact write_busy s.status v
  | _ => rfl

/-- A step that leaves an idle engine busy is the acceptance of an `EXTEND`. -/
theorem Inv.step_begins {s t : State} (h : Inv s) (ht : Machine.step s = .next t) (hb : s.status.busy = false)
    (hb' : t.status.busy = true) : ∃ u, u.params = s.params ∧ t = beginExtend u := by
  have hidle : ∀ x : State, x.status.busy = s.status.busy → ¬ x.status.busy = true := fun x hx => by simp [hx, hb]
  rcases step_next s t ht with ⟨rest, -, hm⟩ | ⟨addr, v, rest, -, hw⟩ | ⟨addr, rest, -, hr⟩ |
    ⟨rest, -, rfl⟩ | ⟨a, b, rest, -, hs⟩ | ⟨rest, -, rfl⟩
  · have hp : s.phase = .idle := h.idle_iff.2 hb
    rw [Machine.microStep, hp, outcome_next_inj] at hm
    exact absurd hb' (hidle t (by rw [← hm]))
  · rcases hostWrite_next addr v _ t hw with ⟨-, hw⟩ | ⟨r, -, -, rfl⟩ | ⟨-, rfl⟩
    · exact ⟨Machine.clearDone { s with inputs := rest }, rfl, writeCmd_begins hw hb hb'⟩
    · exact absurd hb' (hidle _ (writeReg_written r v _).busy)
    · exact absurd hb' (hidle _ rfl)
  · obtain ⟨v, d, rfl⟩ := hostRead_next addr _ t hr
    exact absurd hb' (hidle _ rfl)
  · exact absurd hb' (hidle _ (hostPoll_extendKept _).busy)
  · exact absurd hb' (hidle t (storeByte_extendKept a b hs).busy)
  · cases hb'

/-- At the acceptance no byte is consumed, and `ACC` is the start value. -/
theorem accumulatorLaw_beginExtend (s : State) : AccumulatorLaw (beginExtend s) := by
  intro _ _
  have hcur : (beginExtend s).curNat ≤ s.addr.toNat :=
    (Nat.mod_le _ _).trans (Nat.mod_le _ _)
  refine ⟨[], ?_, loHalf_zext64 _⟩
  rw [beginExtend_addr, Nat.sub_eq_zero_of_le hcur]
  rfl

/-! ### The law of the accumulator -/

/-- A step of an `EXTEND` in progress that leaves it in progress. -/
theorem step_not_reset {s t : State} (h : step s = .next t) (hb' : t.status.busy = true) :
    s.inputs.head? ≠ some .reset := by
  intro hr
  rw [step_of_reset h hr] at hb'
  cases hb'

/-- The law holds behind bytes that are consumed. -/
theorem AccumulatorLaw.consumed {s t : State} (hlaw : AccumulatorLaw s) (hd : Driving s) {bytes : List Byte}
    (hc : Consumed s t bytes) (hk : OperandsKept s t) (hmem : t.mem = s.mem) : AccumulatorLaw t := by
  intro _ ht
  have hs : s.touched = [] := hc.touched.symm.trans ht
  obtain ⟨before, hbefore, hacc⟩ := hlaw hd.busy hs
  have hread : Memory.bytes s.mem s.curNat bytes.length = some bytes := by
    rw [← busBytes_eq_bytes s _ _ hs]
    exact ((memBytes_data_iff ..).1 hc.read).2
  have hle := hd.addr_le_cur
  have hall : Memory.bytes s.mem s.addr.toNat (s.curNat - s.addr.toNat + bytes.length) = some (before ++ bytes) := by
    refine bytes_append _ _ _ _ _ _ hbefore ?_
    rwa [Nat.add_sub_cancel' hle]
  refine ⟨before ++ bytes, ?_, ?_⟩
  · rw [hmem, hk.addr, hc.cur, Nat.sub_add_comm hle, hall]
  · rw [hc.acc, hacc, rawCRC_append, hk.crcIn]

/-- The law holds behind an input that leaves the `EXTEND` where it is. -/
theorem AccumulatorLaw.progressKept {s t : State} (hlaw : AccumulatorLaw s) (hd : Driving s)
    (hk : ProgressKept s t) : AccumulatorLaw t := by
  intro _ ht
  obtain ⟨hkept, hacc⟩ := hk.untouched ht
  obtain ⟨bytes, hbytes, hlaw⟩ := hlaw hd.busy hkept.touched
  have hcur : t.curNat = s.curNat := congrArg BitVec.toNat hk.cur
  have hce := hd.cur_le_end
  have hend := hd.end_eq
  refine ⟨bytes, ?_, ?_⟩
  · rw [hk.addr, hcur, bytes_congr s.mem t.mem _ _ fun x hlo hhi => hkept.buffer x hlo (by omega), hbytes]
  · rw [hk.crcIn, ← hlaw, State.acc32, hacc, State.acc32]

/-- Settles O49: an `EXTEND` begins with no byte consumed, its micro-steps consume bytes of the buffer, and a store to
one of its bytes leaves a touched place. -/
theorem everyStepKeepsTheAccumulatorLaw : Obligations.EveryStepKeepsTheAccumulatorLaw := by
  intro s t hinv hlaw h hb'
  cases hb : s.status.busy with
  | false =>
    obtain ⟨u, -, rfl⟩ := hinv.step_begins h hb hb'
    exact accumulatorLaw_beginExtend u hb'
  | true =>
    rcases step_busy_progress h hb (step_not_reset h hb') with ⟨rest, hm⟩ | hk
    · obtain ⟨bytes, hc⟩ := (hinv.withInputs rest).microStep_consumed hm hb hb'
      have hlaw' : AccumulatorLaw { s with inputs := rest } := hlaw
      exact hlaw'.consumed ((hinv.withInputs rest).driving hb) hc (microStep_operandsKept hm)
        (microStep_memoryKept hm).mem hb'
    · exact hlaw.progressKept (hinv.driving hb) hk hb'

/-! ### The phase graph -/

theorem afterBatch_cases (p : Config.Params) :
    (afterBatch p = .align ∧ p.align = .align4) ∨ (afterBatch p = .g16 ∧ p.align = .omitted) := by
  unfold afterBatch
  cases p.align with
  | align4 => exact .inl ⟨rfl, rfl⟩
  | omitted => exact .inr ⟨rfl, rfl⟩

/-- The edge of the phase graph along which an `EXTEND` begins. -/
theorem firstPhase_cases (s : State) :
    firstPhase s = .batch ∨ (firstPhase s = .align ∧ s.params.align = .align4) ∨
      (firstPhase s = .g16 ∧ s.params.align = .omitted) := by
  unfold firstPhase
  split
  · exact .inl rfl
  · exact .inr (afterBatch_cases s.params)

/-- The edges of the phase graph along which the engine's turn leaves a phase: those to another phase of the
`EXTEND`, its completion and its abort. -/
theorem microStep_phase {s t : State} (h : microStep s = .next t) (hne : t.phase ≠ s.phase) :
    (s.phase, t.phase) ∈ [(.batch, .final), (.g16, .g8), (.g8, .tail), (.tail, .final), (.align, .g16)] ∨
    (s.phase = .batch ∧ t.phase = .align ∧ s.params.align = .align4) ∨
    (s.phase = .batch ∧ t.phase = .g16 ∧ s.params.align = .omitted) ∨
    (s.phase = .final ∧ t.phase = .idle ∧ t.status.done = true) ∨
    (t.phase = .idle ∧ t.status.done = false) := by
  rcases microStep_next s t h with ⟨-, rfl⟩ | ⟨-, -, rfl⟩ | ⟨hp, bytes, -, rfl⟩ | ⟨hp, -, rfl⟩ |
    ⟨hp, -, rfl⟩ | ⟨hp, -, rfl⟩ | ⟨hp, -, rfl⟩ | ⟨-, b, -, rfl⟩ | ⟨-, -, v, w, -, -, rfl⟩ |
    ⟨-, -, v, -, rfl⟩ | ⟨hp, rfl⟩
  · exact absurd rfl hne
  · exact .inr (.inr (.inr (.inr ⟨rfl, rfl⟩)))
  · rw [setPhase_phase]
    split
    next => simp [hp]
    next =>
      rcases afterBatch_cases s.params with ⟨hafter, ha⟩ | ⟨hafter, ha⟩
      · exact .inr (.inl ⟨hp, hafter, ha⟩)
      · exact .inr (.inr (.inl ⟨hp, hafter, ha⟩))
  iterate 4
    · exact .inl (by simp [hp])
  iterate 3
    · exact absurd rfl hne
  · exact .inr (.inr (.inr (.inl ⟨hp, rfl, rfl⟩)))

/-- Settles O42: an idle engine leaves IDLE by an acceptance only, and no input but a reset changes the phase of an
`EXTEND` in progress. -/
theorem phaseGraph : Obligations.PhaseGraph := by
  intro s t hinv h hne
  cases hb : s.status.busy with
  | false =>
    have hp : s.phase = .idle := hinv.idle_iff.2 hb
    have hb' : t.status.busy = true := (hinv.step h).busy_of_phase rfl (hp ▸ hne)
    obtain ⟨u, hu, rfl⟩ := hinv.step_begins h hb hb'
    rw [hp, beginExtend_phase, ← hu]
    rcases firstPhase_cases u with hf | ⟨hf, ha⟩ | ⟨hf, ha⟩
    · simp [hf]
    · simp [hf, ha]
    · simp [hf, ha]
  | true =>
    by_cases hr : s.inputs.head? = some .reset
    · obtain rfl := step_of_reset h hr
      exact .inr (.inr (.inr (.inr ⟨rfl, rfl⟩)))
    rcases step_busy_progress h hb hr with ⟨rest, hm⟩ | hk
    · rcases microStep_phase hm hne with hedge | ⟨hp, hp', ha⟩ | ⟨hp, hp', ha⟩ | hend | hend
      · exact .inl (by simp at hedge ⊢; tauto)
      · exact .inr (.inl ⟨by rw [hp', show s.phase = _ from hp]; decide, ha⟩)
      · exact .inr (.inr (.inl ⟨by rw [hp', show s.phase = _ from hp]; decide, ha⟩))
      · exact .inr (.inr (.inr (.inl hend)))
      · exact .inr (.inr (.inr (.inr hend)))
    · exact absurd hk.phase hne

/-! ### Runs -/

section
variable {M : Host.Core}

theorem run_succ {a b : M.State} (h : M.step a = .next b) (n : Nat) : M.run (n + 1) a = M.run n b := by
  rw [Host.Core.run, h]

/-- A run of at least one step begins with a step. -/
theorem run_succ_next {a t : M.State} {n : Nat} (h : M.run (n + 1) a = .next t) :
    ∃ b, M.step a = .next b ∧ M.run n b = .next t := by
  rw [Host.Core.run] at h
  split at h
  next b hb => exact ⟨b, hb, h⟩
  next => cases h
  next => cases h

theorem run_zero_next {a b : M.State} (h : M.run 0 a = .next b) : a = b := by
  cases h
  rfl

theorem run_add {a b : M.State} {n : Nat} (h : M.run n a = .next b) (k : Nat) :
    M.run (n + k) a = M.run k b := by
  induction n generalizing a with
  | zero => rw [run_zero_next h, Nat.zero_add]
  | succ n ih =>
    obtain ⟨c, hc, hrun⟩ := run_succ_next h
    rw [Nat.add_right_comm, run_succ hc, ih hrun]

/-- A run that is one step longer ends with that step. -/
theorem step_of_run {a m t : M.State} {n : Nat} (h : M.run n a = .next m) (h' : M.run (n + 1) a = .next t) :
    M.step m = .next t := by
  rw [run_add h] at h'
  obtain ⟨b, hb, hrun⟩ := run_succ_next h'
  rw [hb, run_zero_next hrun]

end

/-! ### An `EXTEND` from its acceptance to its completion -/

/-- `m` is a state on the way of the `EXTEND` that began in `a`. -/
structure OnTheWay (a m : State) : Prop where
  inv : Inv m
  law : AccumulatorLaw m
  crcIn : m.crcIn = a.crcIn
  addr : m.addr = a.addr
  len : m.len = a.len
  untouched : m.touched = [] → BufferKept a m

theorem BufferKept.trans {a s t : State} (h : BufferKept a s) (h' : BufferKept s t) (haddr : s.addr = a.addr)
    (hlen : s.len = a.len) : BufferKept a t where
  touched := h.touched
  buffer x hlo hhi := by rw [h'.buffer x (haddr ▸ hlo) (haddr ▸ hlen ▸ hhi), h.buffer x hlo hhi]

/-- A step of an `EXTEND` in progress that leaves no place touched leaves the buffer as it is. -/
theorem Inv.step_bufferKept {s t : State} (h : Inv s) (ht : Machine.step s = .next t) (hb : s.status.busy = true)
    (hb' : t.status.busy = true) (htouched : t.touched = []) : BufferKept s t := by
  rcases step_busy_progress ht hb (step_not_reset ht hb') with ⟨rest, hm⟩ | hk
  · obtain ⟨bytes, hc⟩ := (h.withInputs rest).microStep_consumed hm hb hb'
    exact .of_mem (hc.touched.symm.trans htouched) (microStep_memoryKept hm).mem
  · exact (hk.untouched htouched).1

theorem OnTheWay.step {a s t : State} (h : OnTheWay a s) (ht : Machine.step s = .next t)
    (hb : s.status.busy = true) (hb' : t.status.busy = true) : OnTheWay a t := by
  obtain ⟨hcrc, haddr, hlen, -⟩ := operandsAreStableWhileBusy s t ht hb (step_not_reset ht hb')
  exact
    { inv := h.inv.step ht
      law := everyStepKeepsTheAccumulatorLaw s t h.inv h.law ht
      crcIn := hcrc.trans h.crcIn
      addr := haddr.trans h.addr
      len := hlen.trans h.len
      untouched := fun htouched =>
        have hkept := h.inv.step_bufferKept ht hb hb' htouched
        (h.untouched hkept.touched).trans hkept h.addr h.len }

theorem OnTheWay.run {a : State} (ha : OnTheWay a a) {k : Nat}
    (hbusy : ∀ j, j ≤ k → ∃ m : State, Sys2Proof.core.run j a = .next m ∧ m.status.busy = true) :
    ∃ m : State, Sys2Proof.core.run k a = .next m ∧ m.status.busy = true ∧ OnTheWay a m := by
  induction k with
  | zero =>
    obtain ⟨m, hm, hb⟩ := hbusy 0 le_rfl
    obtain rfl := run_zero_next hm
    exact ⟨a, hm, hb, ha⟩
  | succ k ih =>
    obtain ⟨s, hs, hb, hway⟩ := ih fun j hj => hbusy j (hj.trans k.le_succ)
    obtain ⟨t, ht, hb'⟩ := hbusy (k + 1) le_rfl
    exact ⟨t, ht, hb', hway.step (step_of_run hs ht) hb hb'⟩

/-- The step that completes an `EXTEND` is the final micro-step. -/
theorem step_completes {s t : State} (h : step s = .next t) (hb : s.status.busy = true)
    (hb' : t.status.busy = false) (hdone : t.status.done = true) :
    s.phase = .final ∧ t.touched = s.touched ∧ t.result = complement s.acc32 := by
  have hr : s.inputs.head? ≠ some .reset := by
    intro hr
    rw [step_of_reset h hr] at hdone
    cases hdone
  rcases step_busy_progress h hb hr with ⟨rest, hm⟩ | hk
  · rcases microStep_status_result hm with rfl | ⟨hp, rfl⟩ | ⟨hst, -⟩
    · cases hdone
    · exact ⟨hp, rfl, rfl⟩
    · simp [hst, hb] at hb'
  · simp [hk.busy, hb] at hb'

/-- Behind its whole buffer, untouched, the `EXTEND` has folded the bytes that the buffer held at the acceptance. -/
theorem OnTheWay.acc_of_final {a m : State} (h : OnTheWay a m) (hp : m.phase = .final) (ht : m.touched = []) :
    ∃ bytes, Memory.bytes a.mem a.addr.toNat a.len.toNat = some bytes ∧
      m.acc32 = rawCRC (complement a.crcIn) bytes := by
  have hb := h.inv.busy_of_phase hp
  obtain ⟨bytes, hbytes, hacc⟩ := h.law hb ht
  have hend := (h.inv.driving hb).end_eq
  have hcur : m.curNat = m.endNat := h.inv.in_final hp
  have hspan : m.curNat - m.addr.toNat = m.len.toNat := by omega
  refine ⟨bytes, ?_, by rw [hacc, h.crcIn]⟩
  rw [← hbytes, hspan, h.addr, h.len]
  exact (bytes_congr a.mem m.mem _ _ (h.untouched ht).buffer).symm

/-- Settles O58: the law of the accumulator holds until the final micro-step, of the operands and the bytes at the
acceptance. -/
theorem extendThatCompletesIsRight : Obligations.ExtendThatCompletesIsRight := by
  intro s a t k hinv hexec hbusy hrun hb hb' hdone htouched
  obtain ⟨a', ha', hba⟩ := hbusy 0 k.zero_le
  obtain rfl := run_zero_next ha'
  obtain rfl := exec_begins hexec hb hba
  have hstart : OnTheWay (beginExtend (clearDone s)) (beginExtend (clearDone s)) :=
    { inv := hinv.exec .extend hexec
      law := accumulatorLaw_beginExtend _
      crcIn := rfl
      addr := rfl
      len := rfl
      untouched := fun _ => .of_mem rfl rfl }
  obtain ⟨m, hm, hbm, hway⟩ := hstart.run hbusy
  obtain ⟨hp, htm, hres⟩ := step_completes (step_of_run hm hrun) hbm hb' hdone
  obtain ⟨bytes, hbytes, hacc⟩ := hway.acc_of_final hp (htm.symm.trans htouched)
  exact ⟨bytes, hbytes, by rw [hres, hacc]; rfl⟩

end Sys2Proof.Machine
end

section
/-! An `EXTEND` that nothing disturbs: its states one by one, the count of its micro-steps, and what it leaves (O57,
O59, O60). -/
namespace Sys2Proof.Machine

/-! ### Busy runs -/

/-- From `a`, after each of fewer than `n` steps the engine is busy, and after `n` steps the state is `t`. -/
def BusyFor (n : Nat) (a t : State) : Prop :=
  (∀ k, k < n → ∃ m : State, Sys2Proof.core.run k a = .next m ∧ m.status.busy = true) ∧
    Sys2Proof.core.run n a = .next t

theorem BusyFor.refl (a : State) : BusyFor 0 a a :=
  ⟨fun _ hk => absurd hk (Nat.not_lt_zero _), rfl⟩

theorem BusyFor.cast {n k : Nat} {a t : State} (h : BusyFor n a t) (hnk : n = k) : BusyFor k a t :=
  hnk ▸ h

theorem BusyFor.one {a t : State} (hb : a.status.busy = true) (h : step a = .next t) : BusyFor 1 a t := by
  refine ⟨fun k hk => ?_, run_succ (M := Sys2Proof.core) h 0⟩
  obtain rfl := Nat.lt_one_iff.1 hk
  exact ⟨a, rfl, hb⟩

theorem BusyFor.trans {n k : Nat} {a b t : State} (h : BusyFor n a b) (h' : BusyFor k b t) : BusyFor (n + k) a t := by
  refine ⟨fun j hj => ?_, (run_add (M := Sys2Proof.core) h.2 k).trans h'.2⟩
  by_cases hjn : j < n
  · exact h.1 j hjn
  · obtain ⟨i, rfl⟩ := Nat.exists_eq_add_of_le (not_lt.1 hjn)
    obtain ⟨m, hm, hb⟩ := h'.1 i (by omega)
    exact ⟨m, (run_add (M := Sys2Proof.core) h.2 i).trans hm, hb⟩

/-- A step made `n` times over. -/
theorem BusyFor.iterate {f : Nat → State} (hb : ∀ i, (f i).status.busy = true) {n : Nat}
    (h : ∀ i, i < n → step (f i) = .next (f (i + 1))) : BusyFor n (f 0) (f n) := by
  induction n with
  | zero => exact .refl _
  | succ n ih => exact (ih fun i hi => h i (by omega)).trans (.one (hb n) (h n n.lt_succ_self))

/-! ### The states of an undisturbed `EXTEND` -/

/-- The state of the `EXTEND` that `s` accepts when `k` of its bytes are consumed, in the phase `p`. -/
def midway (s : State) (bytes : List Byte) (k : Nat) (p : Phase) : State :=
  { s with
    acc := zext64 (rawCRC (complement s.crcIn) (bytes.take k))
    cur := BitVec.ofNat 65 (s.addr.toNat + k)
    endPos := BitVec.ofNat 65 (s.addr.toNat + s.len.toNat)
    capl := s.cap
    status := { s.status with busy := true, done := false }
    phase := p
    touched := [] }

/-- The state in which the `EXTEND` that `s` accepts is complete. -/
def completed (s : State) (bytes : List Byte) : State :=
  { s with
    acc := zext64 (complement (extendCRC s.crcIn bytes))
    cur := BitVec.ofNat 65 (s.addr.toNat + s.len.toNat)
    endPos := BitVec.ofNat 65 (s.addr.toNat + s.len.toNat)
    capl := s.cap
    result := extendCRC s.crcIn bytes
    status := { s.status with busy := false, done := true }
    phase := .idle
    touched := [] }

/-- Steps that consume `c` bytes each in the phase `p`, and the step that leaves the phase. -/
theorem midway_loop {s : State} {bytes : List Byte} {k e c n : Nat} {p q : Phase} (he : k + n * c = e)
    (hloop : ∀ j, k ≤ j → j + c ≤ e → step (midway s bytes j p) = .next (midway s bytes (j + c) p))
    (hleave : step (midway s bytes e p) = .next (midway s bytes e q)) :
    BusyFor (n + 1) (midway s bytes k p) (midway s bytes e q) := by
  subst he
  have hiter : BusyFor n (midway s bytes (k + 0 * c) p) (midway s bytes (k + n * c) p) :=
    BusyFor.iterate (f := fun i => midway s bytes (k + i * c) p) (fun _ => rfl) fun i hi => by
      have hle : (i + 1) * c ≤ n * c := Nat.mul_le_mul_right c hi
      rw [Nat.succ_mul] at hle
      rw [hloop (k + i * c) (Nat.le_add_right _ _) (by omega), Nat.succ_mul, Nat.add_assoc]
  rw [Nat.zero_mul] at hiter
  exact hiter.trans (.one rfl hleave)

section
variable {s : State} {bytes : List Byte} (h : Undisturbed s bytes)
include h

theorem Undisturbed.ofNat_toNat {n : Nat} (hn : n ≤ s.addr.toNat + s.len.toNat) : (BitVec.ofNat 65 n).toNat = n := by
  have hle : n ≤ 2 ^ s.params.addrW := hn.trans h.in_space
  rw [← fitPosition_eq_ofNat _ _ hle, fitPosition_toNat _ _ h.params_wf.2.1 hle]

theorem Undisturbed.midway_curNat {k : Nat} (p : Phase) (hk : k ≤ s.len.toNat) :
    (midway s bytes k p).curNat = s.addr.toNat + k :=
  h.ofNat_toNat (by omega)

theorem Undisturbed.midway_endNat (k : Nat) (p : Phase) :
    (midway s bytes k p).endNat = s.addr.toNat + s.len.toNat :=
  h.ofNat_toNat le_rfl

/-- The buffer answers every read within it. -/
theorem Undisturbed.midway_memBytes {k n : Nat} (p : Phase) (hk : k + n ≤ s.len.toNat) :
    (midway s bytes k p).memBytes (midway s bytes k p).curNat n = .data ((bytes.drop k).take n) := by
  obtain ⟨r, hr⟩ : ∃ r, s.len.toNat = k + (n + r) := ⟨s.len.toNat - k - n, by omega⟩
  have hside := h.no_side_effect
  have hholds := h.holds
  rw [hr, sideEffectIn_append, sideEffectIn_append, Bool.or_eq_false_iff, Bool.or_eq_false_iff] at hside
  rw [hr] at hholds
  obtain ⟨xs, tail, hxs, htail, rfl⟩ := bytes_split _ _ _ _ _ hholds
  obtain ⟨ys, zs, hys, -, rfl⟩ := bytes_split _ _ _ _ _ htail
  rw [h.midway_curNat p (by omega), memBytes_data_iff, busBytes_eq_bytes _ _ _ rfl]
  refine ⟨hside.2.1, ?_⟩
  rw [← bytes_length _ _ _ _ hxs, List.drop_left, ← bytes_length _ _ _ _ hys, List.take_left,
    bytes_length _ _ _ _ hxs, bytes_length _ _ _ _ hys]
  exact hys

/-- Folding the next `n` bytes and passing over them leads `n` bytes further. -/
theorem Undisturbed.midway_add {k n : Nat} (p q : Phase) (hk : k + n ≤ s.len.toNat) :
    { midway s bytes k p with
      acc := (rawCRC ((midway s bytes k p).acc.extractLsb' 0 32) ((bytes.drop k).take n)).setWidth 64
      cur := BitVec.ofNat 65 ((midway s bytes k p).curNat + n)
      phase := q } = midway s bytes (k + n) q := by
  have hacc : (midway s bytes k p).acc.extractLsb' 0 32 = rawCRC (complement s.crcIn) (bytes.take k) :=
    loHalf_zext64 _
  rw [h.midway_curNat p (by omega), hacc, ← rawCRC_append, ← List.take_add, Nat.add_assoc]
  rfl

theorem Undisturbed.midway_bounds {k : Nat} (p : Phase) (hk : k ≤ s.len.toNat) :
    (midway s bytes k p).curNat ≤ (midway s bytes k p).endNat ∧
      (midway s bytes k p).endNat ≤ 2 ^ (midway s bytes k p).params.addrW := by
  rw [h.midway_curNat p hk, h.midway_endNat k p]
  exact ⟨by omega, h.in_space⟩

theorem Undisturbed.midway_remaining {k : Nat} (p : Phase) (hk : k ≤ s.len.toNat) :
    (midway s bytes k p).endNat - (midway s bytes k p).curNat = s.len.toNat - k := by
  rw [h.midway_curNat p hk, h.midway_endNat k p]
  omega

/-! ### Its micro-steps -/

theorem Undisturbed.midway_byte {k : Nat} (p : Phase) (hk : k + 1 ≤ s.len.toNat) :
    ∃ b, (bytes.drop k).take 1 = [b] ∧
      (midway s bytes k p).memBytes (midway s bytes k p).curNat 1 = .data [b] := by
  have hread := h.midway_memBytes p hk
  obtain ⟨b, hb⟩ := List.length_eq_one_iff.1 (memBytes_length _ _ _ _ hread)
  exact ⟨b, hb, hb ▸ hread⟩

theorem Undisturbed.align_byte {k : Nat} (hk : k + 1 ≤ s.len.toNat) (hc : (s.addr.toNat + k) % 4 ≠ 0) :
    step (midway s bytes k .align) = .next (midway s bytes (k + 1) .align) := by
  have hcur := h.midway_curNat .align (k := k) (by omega)
  have hend := h.midway_endNat k .align
  obtain ⟨hce, htop⟩ := h.midway_bounds .align (k := k) (by omega)
  obtain ⟨b, hb, hread⟩ := h.midway_byte .align hk
  rw [← h.midway_add .align .align hk, hb]
  exact (alignMicroStep (midway s bytes k .align) h.alone rfl h.params_wf hce htop).2 b (by omega) hread

theorem Undisturbed.align_leave {k : Nat} (hk : k ≤ s.len.toNat)
    (hc : (s.addr.toNat + k) % 4 = 0 ∨ k = s.len.toNat) :
    step (midway s bytes k .align) = .next (midway s bytes k .g16) := by
  have hcur := h.midway_curNat .align hk
  have hend := h.midway_endNat k .align
  obtain ⟨hce, htop⟩ := h.midway_bounds .align hk
  exact (alignMicroStep (midway s bytes k .align) h.alone rfl h.params_wf hce htop).1 (by omega)

theorem Undisturbed.tail_byte {k : Nat} (hk : k + 1 ≤ s.len.toNat) :
    step (midway s bytes k .tail) = .next (midway s bytes (k + 1) .tail) := by
  have hcur := h.midway_curNat .tail (k := k) (by omega)
  have hend := h.midway_endNat k .tail
  obtain ⟨hce, htop⟩ := h.midway_bounds .tail (k := k) (by omega)
  obtain ⟨b, hb, hread⟩ := h.midway_byte .tail hk
  rw [← h.midway_add .tail .tail hk, hb]
  exact (tailMicroStep (midway s bytes k .tail) h.alone rfl h.params_wf hce htop).2 b (by omega) hread

theorem Undisturbed.tail_leave :
    step (midway s bytes s.len.toNat .tail) = .next (midway s bytes s.len.toNat .final) := by
  have hcur := h.midway_curNat .tail le_rfl
  have hend := h.midway_endNat s.len.toNat .tail
  obtain ⟨hce, htop⟩ := h.midway_bounds .tail le_rfl
  exact (tailMicroStep (midway s bytes s.len.toNat .tail) h.alone rfl h.params_wf hce htop).1 (hcur.trans hend.symm)

theorem Undisturbed.g16_words {k : Nat} (hk : k + 16 ≤ s.len.toNat) :
    step (midway s bytes k .g16) = .next (midway s bytes (k + 16) .g16) := by
  have hrem := h.midway_remaining .g16 (k := k) (by omega)
  obtain ⟨hce, htop⟩ := h.midway_bounds .g16 (k := k) (by omega)
  obtain ⟨-, -, hfold, -⟩ := wordMicroStepsFoldTheirBytes (midway s bytes k .g16) _ h.alone h.params_wf hce htop
  rw [← h.midway_add .g16 .g16 hk]
  exact hfold rfl (by omega) (h.midway_memBytes .g16 hk)

theorem Undisturbed.g16_leave {k : Nat} (hk : k ≤ s.len.toNat) (hn : s.len.toNat - k < 16) :
    step (midway s bytes k .g16) = .next (midway s bytes k .g8) := by
  have hrem := h.midway_remaining .g16 hk
  obtain ⟨hce, htop⟩ := h.midway_bounds .g16 hk
  obtain ⟨hleave, -⟩ := wordMicroStepsFoldTheirBytes (midway s bytes k .g16) [] h.alone h.params_wf hce htop
  exact hleave rfl (by omega)

theorem Undisturbed.g8_word {k : Nat} (hk : k + 8 ≤ s.len.toNat) :
    step (midway s bytes k .g8) = .next (midway s bytes (k + 8) .g8) := by
  have hrem := h.midway_remaining .g8 (k := k) (by omega)
  obtain ⟨hce, htop⟩ := h.midway_bounds .g8 (k := k) (by omega)
  obtain ⟨-, -, -, hfold⟩ := wordMicroStepsFoldTheirBytes (midway s bytes k .g8) _ h.alone h.params_wf hce htop
  rw [← h.midway_add .g8 .g8 hk]
  exact hfold rfl (by omega) (h.midway_memBytes .g8 hk)

theorem Undisturbed.g8_leave {k : Nat} (hk : k ≤ s.len.toNat) (hn : s.len.toNat - k < 8) :
    step (midway s bytes k .g8) = .next (midway s bytes k .tail) := by
  have hrem := h.midway_remaining .g8 hk
  obtain ⟨hce, htop⟩ := h.midway_bounds .g8 hk
  obtain ⟨-, hleave, -⟩ := wordMicroStepsFoldTheirBytes (midway s bytes k .g8) [] h.alone h.params_wf hce htop
  exact hleave rfl (by omega)

/-- The micro-step of BATCH, from the start of the buffer. -/
theorem Undisturbed.batch_step {n : Nat}
    (hn : n = s.len.toNat / s.params.batchChunk * s.params.batchChunk) :
    step (midway s bytes 0 .batch) =
      .next (midway s bytes n (if n = s.len.toNat then .final else afterBatch s.params)) := by
  have hle : 0 + n ≤ s.len.toNat := by
    have := Nat.div_mul_le_self s.len.toNat s.params.batchChunk
    omega
  have hcur := h.midway_curNat .batch s.len.toNat.zero_le
  have hend := h.midway_endNat 0 .batch
  have hrem := h.midway_remaining .batch s.len.toNat.zero_le
  obtain ⟨hce, htop⟩ := h.midway_bounds .batch s.len.toNat.zero_le
  have hstep := batchMicroStep (midway s bytes 0 .batch) n _ h.alone rfl h.params_wf hce htop (by rw [hrem]; exact hn)
    (h.midway_memBytes .batch hle)
  have hphase : (midway s bytes 0 .batch).curNat + n = (midway s bytes 0 .batch).endNat ↔ n = s.len.toNat := by
    omega
  have hnext := h.midway_add .batch (if n = s.len.toNat then .final else afterBatch s.params) hle
  rw [Nat.zero_add] at hnext
  rw [hstep, ← hnext, afterBatch_eq]
  simp only [hphase]
  rfl

theorem Undisturbed.final_step :
    step (midway s bytes s.len.toNat .final) = .next (completed s bytes) := by
  have hall : bytes.take s.len.toNat = bytes := List.take_of_length_le (bytes_length _ _ _ _ h.holds).le
  have hacc : (midway s bytes s.len.toNat .final).acc = zext64 (rawCRC (complement s.crcIn) bytes) := by
    rw [midway, hall]
  have hlow : (zext64 (rawCRC (complement s.crcIn) bytes)).extractLsb' 0 32 = rawCRC (complement s.crcIn) bytes :=
    loHalf_zext64 _
  rw [finalMicroStep (midway s bytes s.len.toNat .final) h.alone rfl, hacc, hlow, completed, extendCRC,
    complement_complement]
  rfl

/-! ### Its phases -/

theorem Undisturbed.run_tail {k : Nat} (hk : k ≤ s.len.toNat) :
    BusyFor (s.len.toNat - k + 2) (midway s bytes k .tail) (completed s bytes) := by
  have hbytes : BusyFor (s.len.toNat - k + 1) (midway s bytes k .tail) (midway s bytes s.len.toNat .final) :=
    midway_loop (c := 1) (by omega) (fun j _ hj => h.tail_byte hj) h.tail_leave
  exact hbytes.trans (.one rfl h.final_step)

theorem Undisturbed.run_g8 {k : Nat} (hk : k ≤ s.len.toNat) :
    BusyFor ((s.len.toNat - k) / 8 + (s.len.toNat - k) % 8 + 3) (midway s bytes k .g8) (completed s bytes) := by
  obtain ⟨e, he⟩ : ∃ e, k + (s.len.toNat - k) / 8 * 8 = e := ⟨_, rfl⟩
  have hwords : BusyFor ((s.len.toNat - k) / 8 + 1) (midway s bytes k .g8) (midway s bytes e .tail) :=
    midway_loop he (fun j _ hj => h.g8_word (by omega)) (h.g8_leave (by omega) (by omega))
  exact (hwords.trans (h.run_tail (k := e) (by omega))).cast (by omega)

theorem Undisturbed.run_g16 {k : Nat} (hk : k ≤ s.len.toNat) :
    BusyFor ((s.len.toNat - k) / 16 + (s.len.toNat - k) % 16 / 8 + (s.len.toNat - k) % 8 + 4)
      (midway s bytes k .g16) (completed s bytes) := by
  obtain ⟨e, he⟩ : ∃ e, k + (s.len.toNat - k) / 16 * 16 = e := ⟨_, rfl⟩
  have hwords : BusyFor ((s.len.toNat - k) / 16 + 1) (midway s bytes k .g16) (midway s bytes e .g8) :=
    midway_loop he (fun j _ hj => h.g16_words (by omega)) (h.g16_leave (by omega) (by omega))
  exact (hwords.trans (h.run_g8 (k := e) (by omega))).cast (by omega)

/-- The phase ALIGN consumes the bytes up to a multiple of 4, or up to the end. -/
theorem Undisturbed.run_align {k a : Nat} (hk : k ≤ s.len.toNat)
    (ha : a = min ((4 - (s.addr.toNat + k) % 4) % 4) (s.len.toNat - k)) :
    BusyFor (a + 1) (midway s bytes k .align) (midway s bytes (k + a) .g16) :=
  midway_loop (c := 1) (by omega) (fun j _ hj => h.align_byte (by omega) (by omega))
    (h.align_leave (by omega) (by omega))

/-- The phases without BATCH, from the start of the buffer or behind what the batch unit consumes. -/
theorem Undisturbed.run_plain {k : Nat} (hk : k ≤ s.len.toNat) :
    BusyFor (plainSteps s.params (s.addr.toNat + k) (s.len.toNat - k)) (midway s bytes k (afterBatch s.params))
      (completed s bytes) := by
  unfold plainSteps afterBatch
  cases s.params.align with
  | align4 =>
    obtain ⟨a, ha⟩ : ∃ a, a = min ((4 - (s.addr.toNat + k) % 4) % 4) (s.len.toNat - k) := ⟨_, rfl⟩
    have hall := (h.run_align hk ha).trans (h.run_g16 (k := k + a) (by omega))
    simp only [← ha]
    rw [← Nat.sub_sub] at hall
    exact hall.cast (by omega)
  | omitted => exact h.run_g16 hk

/-- The whole of it: BATCH where it runs, and the phases behind it when bytes are left. -/
theorem Undisturbed.run_extend :
    BusyFor (extendSteps s) (midway s bytes 0 (firstPhase s)) (completed s bytes) := by
  unfold extendSteps firstPhase
  split
  next hbatch =>
    obtain ⟨n, hn⟩ : ∃ n, n = s.len.toNat / s.params.batchChunk * s.params.batchChunk := ⟨_, rfl⟩
    have hle : n ≤ s.len.toNat := hn ▸ Nat.div_mul_le_self _ _
    have hfirst := BusyFor.one rfl (h.batch_step hn)
    simp only [← hn]
    split
    next hall =>
      rw [if_pos hall, hall] at hfirst
      exact hfirst.trans (.one rfl h.final_step)
    next hrest =>
      rw [if_neg hrest] at hfirst
      exact hfirst.trans (h.run_plain hle)
  next => exact h.run_plain (k := 0) (Nat.zero_le _)

/-- An undisturbed `EXTEND` is accepted, and no byte is consumed yet. -/
theorem Undisturbed.exec_extend : exec .extend s = .next (midway s bytes 0 (firstPhase s)) :=
  exec_extend_accepted h.idle h.in_space

end

/-- Settles O57: the phases follow each other from `midway … 0` to `completed`. -/
theorem extendRunsToTheChecksum : Obligations.ExtendRunsToTheChecksum :=
  fun _ _ h => ⟨_, h.exec_extend, h.run_extend⟩

/-- Settles O59: both `EXTEND`s end in `completed`, whose `RESULT` depends on `CRC_IN` and the bytes alone. -/
theorem resultIndependentOfConfiguration : Obligations.ResultIndependentOfConfiguration :=
  fun _ _ bytes h₁ h₂ hcrc =>
    ⟨_, _, _, _, h₁.exec_extend, h₂.exec_extend, h₁.run_extend.2, h₂.run_extend.2, rfl, rfl,
      congrArg (extendCRC · bytes) hcrc⟩

/-! ### The count of its micro-steps -/

theorem plainSteps_le (p : Config.Params) (addr len : Nat) : plainSteps p addr len ≤ len + 5 := by
  unfold plainSteps
  cases p.align with
  | align4 => simp only; omega
  | omitted => simp only; omega

theorem extendSteps_le (s : State) : extendSteps s ≤ s.len.toNat + 6 := by
  have hn := Nat.div_mul_le_self s.len.toNat s.params.batchChunk
  have hrest := plainSteps_le s.params (s.addr.toNat + s.len.toNat / s.params.batchChunk * s.params.batchChunk)
    (s.len.toNat - s.len.toNat / s.params.batchChunk * s.params.batchChunk)
  have hall := plainSteps_le s.params s.addr.toNat s.len.toNat
  unfold extendSteps
  simp only
  split
  · split <;> omega
  · omega

/-- Settles O60: the run of O57, with the bound of its count. -/
theorem extendStepsAreLinear : Obligations.ExtendStepsAreLinear :=
  ⟨fun s _ h => ⟨_, _, extendSteps s, h.exec_extend, extendSteps_le s, h.run_extend.2, rfl, rfl⟩, extendSteps_le⟩

end Sys2Proof.Machine
end

section
/-! The errors: how one is recorded and cleared, which of them a write to `CMD` reports, and the abort of an `EXTEND`
whose read fails (O21 to O24). -/
namespace Sys2Proof.Machine

/-! ### `STATUS` -/

/-- Settles O21: `STATUS` is the register that accepts writes while busy too. -/
theorem firstErrorIsKeptUntilCleared : Obligations.FirstErrorIsKeptUntilCleared :=
  ⟨fun _ _ => rfl, fun _ _ _ h => step_write_accepted .status nofun (.inr rfl) h⟩

/-! ### The errors of a command -/

theorem accept_total (i : Instr) (k : State → State) (s : State) : ∃ t, accept i k s = .next t := by
  unfold accept
  split
  · exact ⟨_, rfl⟩
  · split
    · exact ⟨_, rfl⟩
    · exact ⟨_, rfl⟩

/-- Every command is an acceptance, so it always answers with a next state. -/
theorem exec_total (i : Instr) (s : State) : ∃ t, exec i s = .next t := by
  cases i <;>
    simp only [exec_nop, exec_init, exec_final, exec_step1, exec_step4, exec_swstep, exec_crc32cW, exec_crc32cD,
      exec_neonD, exec_wstep, exec_extend, atomic, accept_total]

/-- A decoded command can record BUSY, UNAVAIL and RANGE only (60_exceptions.md R236): an accepted `EXTEND` writes `BUSY`
and `DONE`, and the other commands have the frame of O19. -/
theorem exec_keeps_error {i : Instr} {s : State} (hb : s.status.busy = false) (hu : ¬ UnitAbsent s.params i)
    (hr : ¬ (i = .extend ∧ 2 ^ s.params.addrW < s.addr.toNat + s.len.toNat)) :
    ∃ t, exec i s = .next t ∧ t.status.err = s.status.err ∧ t.status.errcode = s.status.errcode := by
  by_cases hi : i = .extend
  · subst hi
    exact ⟨_, exec_extend_accepted hb (not_lt.1 fun htop => hr ⟨rfl, htop⟩), rfl, rfl⟩
  · obtain ⟨t, ht⟩ := exec_total i s
    obtain ⟨-, -, -, -, -, hkept, -⟩ := atomicCommandFrame i s t hi ht
    obtain ⟨herr, hcode, -⟩ := hkept hb hu
    exact ⟨t, ht, herr, hcode⟩

/-- Settles O22: with the unit present, RANGE is the one error left to record. -/
theorem unavailExactlyForAbsentUnits : Obligations.UnavailExactlyForAbsentUnits := by
  refine ⟨fun s i hb hu => exec_unavail i hb ((unitAbsent_iff _ _).1 hu), fun s t i hb herr h hu hset => ?_⟩
  by_cases hr : i = .extend ∧ 2 ^ s.params.addrW < s.addr.toNat + s.len.toNat
  · obtain ⟨rfl, htop⟩ := hr
    obtain rfl := Host.Outcome.next.inj ((extendPastTheTopIsRejected s hb htop).symm.trans h)
    exact ⟨by simp [recorded, herr], rfl⟩
  · obtain ⟨u, hexec, hkept, -⟩ := exec_keeps_error hb hu hr
    obtain rfl := Host.Outcome.next.inj (hexec.symm.trans h)
    exact absurd (hset.symm.trans (hkept.trans herr)) nofun

/-- Settles O23: each clause is what `writeCmd` or the decoded command answers in that case. -/
theorem cmdWriteErrorPriority : Obligations.CmdWriteErrorPriority := by
  intro s w rest h
  have hexec : ∀ i, decodeWord w = .ok i → step s = exec i { s with inputs := rest } :=
    fun i => stepRunsDecodedCommand.1 s w i rest h
  refine ⟨fun hb => ?_, illegalWordOnlyRecordsIllegal s w rest h, fun i hb hd hu => ?_, fun hb hd htop => ?_,
    fun i hb hd hu hr => ?_⟩
  · rw [step_write_cmd h]
    exact writeCmd_busy w { s with inputs := rest } hb
  · rw [hexec i hd]
    exact unavailExactlyForAbsentUnits.1 { s with inputs := rest } i hb hu
  · rw [hexec .extend hd]
    exact extendPastTheTopIsRejected { s with inputs := rest } hb htop
  · rw [hexec i hd]
    exact exec_keeps_error (s := { s with inputs := rest }) hb hu hr

/-! ### Reads that fail -/

/-- What the answer of a read `r` says of the `n` places from `a`: data, that each of them holds a byte; a refusal, that
one of them has a side effect. (`ReadsAt` goes the other way, from the places to the answer.) Where neither is so, the
read gets an error (`AnswersFor.busError`). -/
structure AnswersFor {α : Type} (s : State) (a n : Nat) (r : ReadResult α) : Prop where
  listed : ∀ x, r = .data x → ∃ bytes, Memory.bytes s.mem a n = some bytes
  sideEffect : r = .sideEffect → sideEffectIn s.params a n = true

theorem AnswersFor.busError {α : Type} {s : State} {a n : Nat} {r : ReadResult α} (h : AnswersFor s a n r)
    (hl : Memory.bytes s.mem a n = none) (hse : sideEffectIn s.params a n = false) : r = .busError := by
  cases hr : r with
  | busError => rfl
  | data x =>
    obtain ⟨bytes, hbytes⟩ := h.listed x hr
    exact absurd (hl.symm.trans hbytes) nofun
  | sideEffect => exact absurd (hse.symm.trans (h.sideEffect hr)) nofun

theorem AnswersFor.nothing {α : Type} (s : State) (a : Nat) (x : α) : AnswersFor s a 0 (.data x) :=
  ⟨fun _ _ => ⟨[], rfl⟩, nofun⟩

theorem memBytes_answersFor (s : State) (a n : Nat) : AnswersFor s a n (s.memBytes a n) :=
  ⟨fun _ => exists_bytes_of_memBytes, (memBytes_sideEffect_iff s a n).1⟩

theorem AnswersFor.map {α β : Type} {s : State} {a n : Nat} {r : ReadResult α} (h : AnswersFor s a n r) (f : α → β) :
    AnswersFor s a n (r.map f) where
  listed y hy := by
    obtain ⟨x, hx, -⟩ := (map_data_iff r f y).1 hy
    exact h.listed x hx
  sideEffect hr := h.sideEffect ((map_sideEffect_iff r f).1 hr)

theorem AnswersFor.andThen {α β : Type} {s : State} {a n m : Nat} {r : ReadResult α} {q : α → ReadResult β}
    (h : AnswersFor s a n r) (hq : ∀ x, r = .data x → AnswersFor s (a + n) m (q x)) :
    AnswersFor s a (n + m) (r.andThen q) where
  listed y hy := by
    obtain ⟨x, hx, hqx⟩ := (andThen_data_iff r q y).1 hy
    obtain ⟨xs, hxs⟩ := h.listed x hx
    obtain ⟨ys, hys⟩ := (hq x hx).listed y hqx
    exact ⟨xs ++ ys, bytes_append _ _ _ _ _ _ hxs hys⟩
  sideEffect hr := by
    rw [sideEffectIn_append, Bool.or_eq_true]
    exact ((andThen_sideEffect_iff r q).1 hr).imp h.sideEffect fun ⟨x, hx, hqx⟩ => (hq x hx).sideEffect hqx

theorem memRead_answersFor (s : State) (a n : Nat) : AnswersFor s a n (s.memRead a n) :=
  (memBytes_answersFor s a n).map _

theorem byteStepMem_answersFor (s : State) : AnswersFor s s.curNat 1 (byteStepMem s) :=
  (memRead_answersFor s s.curNat 1).map _

theorem wordStepMem_answersFor (sel : Sel) (s : State) : AnswersFor s s.curNat 8 (wordStepMem sel s) := by
  refine AnswersFor.map ?_ _
  cases sel with
  | sw | hw4 => exact (memRead_answersFor s s.curNat 4).andThen fun _ _ => (memRead_answersFor s _ 4).map _
  | hw8 | neon => exact (memRead_answersFor s s.curNat 8).map _

/-- The second word step of G16 reads where the first one leaves `CUR`. -/
theorem wordStepMem_twice_answersFor {s : State} (h : Inv s) (hp : s.phase = .g16) (hn : 16 ≤ s.remaining)
    (sel : Sel) : AnswersFor s s.curNat 16 ((wordStepMem sel s).andThen (wordStepMem sel)) := by
  refine (wordStepMem_answersFor sel s).andThen (m := 8) fun t ht => ?_
  obtain ⟨v, -, rfl⟩ := wordStepMem_data sel s t ht
  have hcur := (h.driving (h.busy_of_phase hp)).consumed_curNat h.standing v (n := 8) (by omega)
  rw [← hcur]
  exact { wordStepMem_answersFor sel (advance 8 (Machine.setAcc v s)) with }

/-- Every micro-step ends as a read of the `readSpan` places at `CUR` does. -/
theorem Inv.microStep_answersFor {s : State} (h : Inv s) :
    ∃ r, AnswersFor s s.curNat (readSpan s) r ∧ Machine.microStep s = finishReads s r := by
  unfold readSpan Machine.microStep
  cases hp : s.phase with
  | idle => exact ⟨_, .nothing s s.curNat s, rfl⟩
  | final => exact ⟨_, .nothing s s.curNat _, rfl⟩
  | batch => exact ⟨_, (memBytes_answersFor s s.curNat (batchPrefix s)).map _, rfl⟩
  | align =>
    by_cases hc : s.curNat % 4 = 0 ∨ s.curNat = s.endNat
    · exact ⟨.data (setPhase .g16 s), by simpa only [if_pos hc] using .nothing s s.curNat _, if_pos hc⟩
    · exact ⟨_, by simpa only [if_neg hc] using byteStepMem_answersFor s, if_neg hc⟩
  | g16 =>
    by_cases hc : 16 ≤ s.endNat - s.curNat
    · exact ⟨_, by simpa only [if_pos hc] using wordStepMem_twice_answersFor h hp hc s.capl.sel, if_pos hc⟩
    · exact ⟨.data (setPhase .g8 s), by simpa only [if_neg hc] using .nothing s s.curNat _, if_neg hc⟩
  | g8 =>
    by_cases hc : 8 ≤ s.endNat - s.curNat
    · exact ⟨_, by simpa only [if_pos hc] using wordStepMem_answersFor s.capl.sel s, if_pos hc⟩
    · exact ⟨.data (setPhase .tail s), by simpa only [if_neg hc] using .nothing s s.curNat _, if_neg hc⟩
  | tail =>
    by_cases hc : s.curNat = s.endNat
    · exact ⟨.data (setPhase .final s), by simpa only [if_pos hc] using .nothing s s.curNat _,
        if_neg (not_not.2 hc)⟩
    · exact ⟨_, by simpa only [if_neg hc] using byteStepMem_answersFor s, if_pos hc⟩

/-- Settles O24: the read of the micro-step gets an error, whatever the phase. -/
theorem failedReadAborts : Obligations.FailedReadAborts := by
  intro s hinv hi hl hse
  obtain ⟨r, hr, hm⟩ := hinv.microStep_answersFor
  rw [step_nil s hi, hm, hr.busError hl hse]
  rfl

end Sys2Proof.Machine
end

section
/-! What asserting reset does (O51). -/
namespace Sys2Proof.Machine

/-- Reset has no guard: it acts in every phase, busy or not (70_reset_and_hazards.md R260). -/
theorem step_reset {s : State} {rest : List Input} (h : s.inputs = .reset :: rest) :
    step s = .next (resetEngine { s with inputs := rest }) :=
  step_cons s .reset rest h

/-- Settles O51: the step is `resetEngine`, whose fields are the reset values or those of the state before. -/
theorem resetAtAnyTime : Obligations.ResetAtAnyTime := by
  intro s rest h
  rw [step_reset h]
  rfl

end Sys2Proof.Machine
end
